-- ==== Sys2Proof/Word.lean ====
section
/-! DEFINITION. The word types of the block and the Decoder's four reasons. -/

namespace Sys2Proof

/-- One byte: a channel of a source pixel, a sample of `SRC`, a byte of `DST` (R40, R71). -/
abbrev Byte := BitVec 8

/-- One RGB565 word, sixteen bits (R72). -/
abbrev Half := BitVec 16

/-- One 32-bit quantity: a register as the Host sees it, a command or response word (R5 `REGW`, R22, R78, R80). -/
abbrev Word := BitVec 32

/-- The four reasons a Decoder may report in `DEC.ERR` (R102), named as R77 names the kinds. -/
inductive DecodeReason where
  | malformedHeader
  | truncatedData
  | unsupportedFeature
  | internalDecodeFailure
  deriving DecidableEq, Repr

end Sys2Proof
end

