-- ==== Sys2Proof/Config.lean ====
section
/-! DEFINITION. The parameters of R5 and the values the spec leaves open.

An `opaque` constant has no body, so nothing can be proved of its value: a claim is true whatever it is. -/

namespace Sys2Proof

/-- `DIM_MIN`, the least legal width and height (R5). -/
def Config.dimMin : Nat := 1

/-- `DIM_MAX`, the greatest legal width and height (R5). -/
def Config.dimMax : Nat := 256

/-- `BPP_SRC`, bytes per source pixel (R5). -/
def Config.bppSrc : Nat := 3

/-- `BPP_DST`, bytes per packed pixel (R5). -/
def Config.bppDst : Nat := 2

/-- `MAX_PIXELS`, `DIM_MAX * DIM_MAX` (R5). -/
def Config.maxPixels : Nat := 65536

/-- `SRC_MAX`, the largest sample buffer the Engine ever reads (R5). -/
def Config.srcMax : Nat := 196608

/-- `DST_MAX`, the largest packed buffer (R5). -/
def Config.dstMax : Nat := 131072

/-- `ALLOC_CAN_FAIL`, whether the draw `alloc_ok` may be false: an OPEN parameter of R5 (D10, U7; log 4). -/
opaque Config.allocCanFail : Bool

/-- The Allocator's answer to the `n`-th `ALLOC` when State lists none: a free value (R26, U7; log 3). -/
opaque Config.allocDraw : Nat → Bool

/-- The byte at an offset of the buffer that the `n`-th `ALLOC` obtained, before `PACKPX` writes it:
a free value (R19, R121, U3; log 5). -/
opaque Config.freshByte : Nat → Nat → Byte

/-- `SRC_BASE`, where a platform places `SRC`: OPEN, and no rule of the spec reads it (R5, D9; log 22). -/
opaque Config.srcBase : Nat

/-- `DST_BASE`, where a platform places `DST`: OPEN, and no rule of the spec reads it (R5, D9; log 22). -/
opaque Config.dstBase : Nat

end Sys2Proof
end

