-- ==== Sys2Proof/Syntax.lean ====
section
/-! DEFINITION. The operations of the block: one constructor per row of spec/opcode_table.json (R86). -/

namespace Sys2Proof

/-- The fourteen operations of R86 and the reset event of R190. -/
inductive Instr where
  /-- `NOP`, no operation (R143). -/
  | nop
  /-- `PROCESS`, start a call (R141). -/
  | process
  /-- `RELEASE`, end a call and return to `Start` (R142). -/
  | release
  /-- `REGRD off`, read the register at byte offset `off` (R148). -/
  | regrd (off : Nat)
  /-- `REGWR off, v`, write `v` to the register at byte offset `off` (R149). -/
  | regwr (off : Nat) (v : Word)
  /-- `DSTRD off`, read byte `off` of the packed buffer (R150). -/
  | dstrd (off : Nat)
  /-- `DEC.OK aw, ah, buf`, the Decoder delivers a DecodedImage (R101). -/
  | decOk (aw ah : Word) (buf : List Byte)
  /-- `DEC.ERR reason`, the Decoder reports a `DecodeError` (R102). -/
  | decErr (reason : DecodeReason)
  /-- `DEC.NOMEM`, the Decoder could not allocate the sample buffer (R103). -/
  | decNomem
  /-- `VDIM`, validate the declared dimensions (R144). -/
  | vdim
  /-- `CDIM`, check decoded against declared dimensions (R120). -/
  | cdim
  /-- `ALLOC alloc_ok`, allocate the packed buffer, with the Allocator's draw (R121). -/
  | alloc (allocOk : Bool)
  /-- `PACKPX`, convert one pixel (R122). -/
  | packpx
  /-- `FINISH`, end of packing (R123). -/
  | finish
  /-- `RESET`, hardware reset (R190). -/
  | reset
  deriving DecidableEq, Repr

end Sys2Proof
end

