-- ==== Sys2Proof/WellFormed.lean ====
section
/-! DEFINITION. Which operations the spec gives an effect: the checks on operands that no type makes. -/

namespace Sys2Proof

/-- A register offset is a multiple of 4 (R83); a delivered buffer has exactly `3 * aw * ah` bytes, "an exact product
of naturals" (R104, D20). Every other operation is well formed whatever its operands. -/
def Instr.wellFormed : Instr → Bool
  | .nop => true
  | .process => true
  | .release => true
  | .regrd off => off % 4 == 0
  | .regwr off _ => off % 4 == 0
  | .dstrd _ => true
  | .decOk aw ah buf => buf.length == 3 * aw.toNat * ah.toNat
  | .decErr _ => true
  | .decNomem => true
  | .vdim => true
  | .cdim => true
  | .alloc _ => true
  | .packpx => true
  | .finish => true
  | .reset => true

end Sys2Proof
end

