-- ==== Sys2Proof/Decode.lean ====
section
/-! DEFINITION. What stands on the block's doors (R70), the decoder, and after it the encoder.

The block fetches no instructions (R13): a step takes either what an agent presents at a door, or the Engine's own
operation, which "is a function of the state alone" (R84). Both are a `Message`. -/

namespace Sys2Proof

/-- What an agent outside the Engine presents: formats `C`, `D1` and `D3`, `BUS` (R70), and the reset event (R190). -/
inductive Arrival where
  /-- Format `C`: a 32-bit word written to `CMD` (R78). -/
  | command (w : Word)
  /-- Formats `D1` and `D3`: word 0 on the Decoder port, and the two further words and the sample buffer that are
  read only where word 0 says that they come (R80, R81, R85; log 16). -/
  | response (w0 w1 w2 : Word) (buf : List Byte)
  /-- Format `BUS`, direction read, target a register offset (R83). -/
  | readReg (off : Nat)
  /-- Format `BUS`, direction write, target a register offset (R83). -/
  | writeReg (off : Nat) (v : Word)
  /-- Format `BUS`, direction read, target a byte offset of `DST` (R83). -/
  | readDst (off : Nat)
  /-- The hardware reset event, which has no word (R190). -/
  | resetLine
  deriving DecidableEq, Repr

/-- Format `SEQ`: the part of the state that selects the Engine's operation (R84). -/
structure Selector where
  /-- `STATUS[2:0]`, the code of `PHASE`. -/
  phase : BitVec 3
  /-- `OUTLEN == 0`. -/
  noBuffer : Bool
  /-- How `IDX` compares with `EW * EH`. -/
  progress : Ordering
  deriving DecidableEq, Repr

/-- What one step decodes: an arrival at a door, or the Engine's selecting state with the Allocator's draw beside it. -/
inductive Message where
  | arrival (a : Arrival)
  | select (sel : Selector) (allocOk : Bool)
  deriving DecidableEq, Repr

/-- Why a message selects no operation. -/
inductive Reject where
  /-- A `CMD` word that R79 does not assign (R87). -/
  | reservedCommand (w : Word)
  /-- A Decoder word 0 that R82 does not assign (R87). -/
  | reservedResponse (w0 : Word)
  /-- A register access at an offset that is not a multiple of 4 (R83, U6). -/
  | misaligned (off : Nat)
  /-- The Engine has no enabled step in the selecting state (R84, last row). -/
  | noOperation
  deriving DecidableEq, Repr

/-- The outcome of decoding: an operation, or a rejection by name. -/
inductive Decoded where
  | ok (i : Instr)
  | reject (r : Reject)
  deriving DecidableEq, Repr

/-- The three Host commands of R79. -/
inductive Command where
  | nop
  | process
  | release
  deriving DecidableEq, Repr

/-- R79: the whole 32-bit word is decoded, so a word with any of bits 31:8 set selects no command (R78). -/
def decodeCommand (w : Word) : Option Command :=
  if w = 0x00000000#32 then some .nop
  else if w = 0x00000001#32 then some .process
  else if w = 0x00000002#32 then some .release
  else none

/-- The operation that a Host command is. -/
def commandInstr : Command → Instr
  | .nop => .nop
  | .process => .process
  | .release => .release

/-- The `reason` field of a `D1` word (R80). -/
def reasonField (w0 : Word) : BitVec 4 := w0.extractLsb' 8 4

/-- `reason` is an `ERR` code and must be 2, 3, 4 or 5 (R77, R80). -/
def decodeReason (f : BitVec 4) : Option DecodeReason :=
  if f = 2#4 then some .malformedHeader
  else if f = 3#4 then some .truncatedData
  else if f = 4#4 then some .unsupportedFeature
  else if f = 5#4 then some .internalDecodeFailure
  else none

/-- R82, by its masks and matches. The length of a response is decided by `op` in word 0 (R85). -/
def decodeResponse (w0 w1 w2 : Word) (buf : List Byte) : Decoded :=
  if w0 = 0x00000010#32 then .ok (.decOk w1 w2 buf)
  else if w0 &&& 0xFFFFF0FF#32 = 0x00000011#32 then
    match decodeReason (reasonField w0) with
    | some r => .ok (.decErr r)
    | none => .reject (.reservedResponse w0)
  else if w0 = 0x00000012#32 then .ok .decNomem
  else .reject (.reservedResponse w0)

/-- The doors of R70 and the reset event. -/
def decodeArrival : Arrival → Decoded
  | .command w =>
    match decodeCommand w with
    | some c => .ok (commandInstr c)
    | none => .reject (.reservedCommand w)
  | .response w0 w1 w2 buf => decodeResponse w0 w1 w2 buf
  | .readReg off => if off % 4 = 0 then .ok (.regrd off) else .reject (.misaligned off)
  | .writeReg off v => if off % 4 = 0 then .ok (.regwr off v) else .reject (.misaligned off)
  | .readDst off => .ok (.dstrd off)
  | .resetLine => .ok .reset

/-- R84: which Engine operation is next. -/
def decodeSelector (sel : Selector) (allocOk : Bool) : Decoded :=
  if sel.phase = 1#3 then .ok .vdim
  else if sel.phase = 3#3 then .ok .cdim
  else if sel.phase = 4#3 then
    if sel.noBuffer then .ok (.alloc allocOk)
    else
      match sel.progress with
      | .lt => .ok .packpx
      | .eq => .ok .finish
      | .gt => .reject .noOperation
  else .reject .noOperation

/-- Whether the selected operation consumes a draw: only `ALLOC` does (R86, R121). -/
def asksDraw (sel : Selector) : Bool := sel.phase == 4#3 && sel.noBuffer

/-- The decoder, total on every message. -/
def decode : Message → Decoded
  | .arrival a => decodeArrival a
  | .select sel allocOk => decodeSelector sel allocOk

/-- The instruction of a decoding, if there is one. -/
def decodedInstr? : Decoded → Option Instr
  | .ok i => some i
  | .reject _ => none

/-! ## The encoder, from the same tables -/

/-- The code of a reason in the `reason` field (R77, R82). -/
def reasonCode : DecodeReason → BitVec 4
  | .malformedHeader => 2#4
  | .truncatedData => 3#4
  | .unsupportedFeature => 4#4
  | .internalDecodeFailure => 5#4

/-- The selecting state of an Engine operation (R84). A part that does not matter to the row is given as it is right
after reset. -/
def selectorFor (phase : BitVec 3) (noBuffer : Bool) (progress : Ordering) : Message :=
  .select { phase := phase, noBuffer := noBuffer, progress := progress } false

/-- The words of an operation: R79 for the commands, R82 for the responses (`0x00000011 | (reason << 8)`, R102), R83 for
the accesses, R84 for the Engine's operations. -/
def encode : Instr → Message
  | .nop => .arrival (.command 0x00000000#32)
  | .process => .arrival (.command 0x00000001#32)
  | .release => .arrival (.command 0x00000002#32)
  | .regrd off => .arrival (.readReg off)
  | .regwr off v => .arrival (.writeReg off v)
  | .dstrd off => .arrival (.readDst off)
  | .decOk aw ah buf => .arrival (.response 0x00000010#32 aw ah buf)
  | .decErr reason => .arrival (.response (0x00000011#32 ||| ((reasonCode reason).setWidth 32 <<< 8)) 0 0 [])
  | .decNomem => .arrival (.response 0x00000012#32 0 0 [])
  | .vdim => selectorFor 1#3 true .eq
  | .cdim => selectorFor 3#3 true .lt
  | .alloc allocOk => .select { phase := 4#3, noBuffer := true, progress := .lt } allocOk
  | .packpx => selectorFor 4#3 false .lt
  | .finish => selectorFor 4#3 false .eq
  | .reset => .arrival .resetLine

/-! ## The numbering of spec/opcode_table.json -/

/-- The message that a table word stands for (log 17). A row of 32 bits or more is words on `CMD` or on the Decoder port,
told apart by `op`, whose values are disjoint (R82). A shorter row is matched over `STATUS[2:0]` or over a register
offset; bits 3 and 4 stand for the rest of R84's selecting state, and a register offset is read. A row of no bits is the
reset event. -/
def tableMessage (nbits w : Nat) : Message :=
  if nbits = 0 then .arrival .resetLine
  else if nbits < 32 then
    let phase := BitVec.ofNat 3 w
    if phase = 1#3 ∨ phase = 3#3 ∨ phase = 4#3 then
      .select
        { phase := phase
          noBuffer := !(BitVec.ofNat 8 w).getLsbD 3
          progress := if (BitVec.ofNat 8 w).getLsbD 4 then .eq else .lt }
        true
    else .arrival (.readReg w)
  else
    let w0 := BitVec.ofNat 32 w
    if w0.extractLsb' 4 4 = 0#4 then .arrival (.command w0)
    else .arrival (.response w0 (BitVec.ofNat 32 (w / 2 ^ 32)) (BitVec.ofNat 32 (w / 2 ^ 64)) [])

/-- The instruction this decoder reads from a word of the table. -/
def decodeTableWord (nbits w : Nat) : Option Instr := decodedInstr? (decode (tableMessage nbits w))

end Sys2Proof
end

