-- ==== Sys2Proof/Machine/State.lean ====
section
/-! DEFINITION. The state of the block (R10) and, beside it, what its environment holds for the step to read (R26). -/

namespace Sys2Proof.Machine

/-- The seven phases of R14, in the source's order. Code 7 is never held, so it is left out (U14; log 20). -/
inductive Phase where
  | start
  | validateDimensions
  | decode
  | checkDimensions
  | pack
  | done
  | failed
  deriving DecidableEq, Repr

/-- The eight values of `ERR` (R16). Codes 8 to 15 are never held, so they are left out (U14; log 20). -/
inductive ErrKind where
  | none
  | invalidDimensions
  | malformedHeader
  | truncatedData
  | unsupportedFeature
  | internalDecodeFailure
  | dimensionMismatch
  | allocationFailure
  deriving DecidableEq, Repr

/-- An address space (R40): its bytes with their offsets, in the one canonical form in which the `i`-th cell has offset
`i`. An offset that is not listed does not exist (log 6). -/
abbrev Memory := List Host.Cell

/-- The whole state of the block, R10's list. `SRC_LEN` is the length of `src`; `STATUS` and `CMD` hold nothing. -/
structure Block where
  /-- `PHASE` (R13, R14). -/
  phase : Phase
  /-- `EW`, the expected width (R11). -/
  ew : Word
  /-- `EH`, the expected height (R11). -/
  eh : Word
  /-- `AW`, the actual width (R12). -/
  aw : Word
  /-- `AH`, the actual height (R12). -/
  ah : Word
  /-- `IDX`, the index of the next pixel to convert (R15). -/
  idx : BitVec 17
  /-- `ERR`, the kind of the failure, or none (R16). -/
  err : ErrKind
  /-- `OUTLEN`, the number of bytes of `DST` that exist (R17). -/
  outlen : BitVec 18
  /-- `SRC`, the sample buffer (R18). -/
  src : Memory
  /-- `DST`, the packed buffer (R19). -/
  dst : Memory
  deriving DecidableEq, Repr

/-- Whose turn it is: the Engine takes its enabled operation, or an agent presents something at a door (R4, U12). -/
inductive Turn where
  | engine
  | arrival (a : Arrival)
  deriving DecidableEq, Repr

/-- What a read returns to the Host: 32 bits from a register, 8 bits from `DST` (R83). -/
inductive BusData where
  | word (v : Word)
  | byte (b : Byte)
  deriving DecidableEq, Repr

/-- The model's own fields (log 1, log 3, log 13, log 14, log 19): none is state of the block. -/
structure Env where
  /-- The coming turns, first one first; once there are none the Engine has every turn (R26, U12). -/
  agenda : List Turn
  /-- The Allocator's coming answers `alloc_ok` (R26). -/
  draws : List Bool
  /-- How many `ALLOC` operations have been performed: the index of the free values. -/
  allocCount : Nat
  /-- What the last Host read returned. -/
  busData : Option BusData
  /-- The bytes of the last admitted `DEC.OK`; only INV7 of R27 speaks of them. -/
  delivered : List Byte
  deriving DecidableEq, Repr

/-- The machine: the block and its environment. -/
structure State where
  block : Block
  env : Env
  deriving DecidableEq, Repr

/-- Why the machine stops with a fault. Each is raised only in a state that breaks an invariant of R27 (log 12), and each
is safe: nothing is proved of what the hardware does there. -/
inductive Fault where
  /-- Raised by `PACKPX` when a byte of `SRC` it reads does not exist (R7 `MemRead`, R50). Safe. -/
  | srcOutOfRange
  /-- Raised by `PACKPX` when a byte of `DST` it writes does not exist (R7 `MemWrite`, R50), and by `DSTRD` when a byte below
  `OUTLEN` does not exist (R19). Safe. -/
  | dstOutOfRange
  /-- Raised by `ALLOC` and `PACKPX` when the value to be written does not fit its register (R7, R118). Safe. -/
  | registerTooNarrow
  deriving DecidableEq, Repr

/-- Why a step has no meaning. -/
inductive Refusal where
  /-- An instruction that has no meaning yet; no arm of `exec` answers so. Safe. -/
  | notModelled (mnemonic : String)
  /-- Raised by `REGRD` and `REGWR` at an offset that is not a multiple of 4: "a model refuses it" (R83, U6). Safe. -/
  | misalignedRegisterAccess (off : Nat)
  /-- Raised by `DSTRD` outside `Done` or at an offset not below `OUTLEN`: "a model refuses it" (R150, U4). Safe. -/
  | dstReadNotAdmitted (off : Nat)
  /-- Raised by `DEC.OK` in `Decode` when the buffer has not `3 * aw * ah` bytes: "a model gives it no step" (R104, U2). Safe. -/
  | decoderBufferLength
  /-- Raised by an Engine operation executed where it is not enabled: "An agent may perform only an enabled operation"
  (R8; log 11). No step raises it. Safe. -/
  | engineNotEnabled
  deriving DecidableEq, Repr

/-- The block after reset, R28's table. -/
def Block.reset : Block where
  phase := .start
  ew := 0
  eh := 0
  aw := 0
  ah := 0
  idx := 0
  err := .none
  outlen := 0
  src := []
  dst := []

/-- The environment right after reset: nobody has anything in store (DESIGN CHOICE, log 19). -/
def Env.reset : Env where
  agenda := []
  draws := []
  allocCount := 0
  busData := none
  delivered := []

/-- The machine right after reset (R28, R190). -/
def State.reset : State where
  block := Block.reset
  env := Env.reset

end Sys2Proof.Machine
end

