-- ==== Sys2Proof/Machine/Operands.lean ====
section
/-! DEFINITION. The pure functions of the data path and the control path: codes, the range test, quantisation, packing,
serialisation and offsets (R76, R77, R111 to R118). -/

namespace Sys2Proof.Machine

/-- The 3-bit code of `PHASE` (R14, R76). -/
def phaseCode : Phase → BitVec 3
  | .start => 0
  | .validateDimensions => 1
  | .decode => 2
  | .checkDimensions => 3
  | .pack => 4
  | .done => 5
  | .failed => 6

/-- The 4-bit code of `ERR` (R16, R77). -/
def errCode : ErrKind → BitVec 4
  | .none => 0
  | .invalidDimensions => 1
  | .malformedHeader => 2
  | .truncatedData => 3
  | .unsupportedFeature => 4
  | .internalDecodeFailure => 5
  | .dimensionMismatch => 6
  | .allocationFailure => 7

/-- "raise <kind with code reason>": a Decoder error is propagated verbatim (R102, R162 to R165). -/
def kindOfReason : DecodeReason → ErrKind
  | .malformedHeader => .malformedHeader
  | .truncatedData => .truncatedData
  | .unsupportedFeature => .unsupportedFeature
  | .internalDecodeFailure => .internalDecodeFailure

/-- `InRange(v)`: `1 <= v` and `v <= 256`, compared as unsigned numbers (R111). -/
def inRange (v : Word) : Bool := decide (Config.dimMin ≤ v.toNat) && decide (v.toNat ≤ Config.dimMax)

/-- `Q5(c) = c >> 3 = c[7:3]` (R112). -/
def q5 (c : Byte) : BitVec 5 := c.extractLsb' 3 5

/-- `Q6(c) = c >> 2 = c[7:2]` (R113). -/
def q6 (c : Byte) : BitVec 6 := c.extractLsb' 2 6

/-- `PACK565(r, g, b)`, the masking form that R114 makes normative. -/
def pack565 (r g b : Byte) : Half :=
  ((r.setWidth 16 &&& 0x00F8#16) <<< 8) ||| ((g.setWidth 16 &&& 0x00FC#16) <<< 3) ||| (b.setWidth 16 >>> 3)

/-- `LE16(w) = [w[7:0], w[15:8]]`, low byte first (R115, R44). -/
def le16 (w : Half) : List Byte := [w.extractLsb' 0 8, w.extractLsb' 8 8]

/-- `idx = y * width + x` (R75, R116). -/
def pixelIndex (width x y : Nat) : Nat := y * width + x

/-- `SrcOff(idx) = 3 * idx` (R116). -/
def srcOff (idx : Nat) : Nat := Config.bppSrc * idx

/-- `DstOff(idx) = 2 * idx` (R116). -/
def dstOff (idx : Nat) : Nat := Config.bppDst * idx

/-- `EW * EH`, an exact product (R110, R118). -/
def Block.pixels (b : Block) : Nat := b.ew.toNat * b.eh.toNat

/-- The draw `alloc_ok`: "if ALLOC_CAN_FAIL is false, alloc_ok is 1" (R121; log 21). -/
def granted (allocOk : Bool) : Bool := allocOk || !Config.allocCanFail

/-- A value that a rule writes "must fit the register's width" (R7). -/
def fit (width : Nat) (v : Nat) : Option (BitVec width) :=
  if v < 2 ^ width then some (BitVec.ofNat width v) else none

end Sys2Proof.Machine
end

