-- ==== Sys2Proof/Machine/Flags.lean ====
section
/-! DEFINITION. `STATUS`, the block's only status bits: a view computed from `PHASE` and `ERR` (R20). There are no condition
codes (R24), so no operation computes a flag. -/

namespace Sys2Proof.Machine

/-- `BUSY`, bit 3: 1 in `ValidateDimensions`, `Decode`, `CheckDimensions` and `Pack` (R20). -/
def busyBit : Phase → Bool
  | .start => false
  | .validateDimensions => true
  | .decode => true
  | .checkDimensions => true
  | .pack => true
  | .done => false
  | .failed => false

/-- `DONE`, bit 4 (R20). -/
def doneBit (p : Phase) : Bool := p == .done

/-- `FAILED`, bit 5 (R20). -/
def failedBit (p : Phase) : Bool := p == .failed

/-- `DECREQ`, bit 6: the Decoder is invoked and owes an answer (R20, R100, D28). -/
def decreqBit (p : Phase) : Bool := p == .decode

/-- `FATAL`, bit 7: `PHASE == Failed` and `ERR == 7` (R20). -/
def fatalBit (p : Phase) (e : ErrKind) : Bool := p == .failed && e == .allocationFailure

/-- `STATUS`: bits 31:8 read as 0 (R20). -/
def statusWord (p : Phase) (e : ErrKind) : Word :=
  (0#24 ++ BitVec.ofBool (fatalBit p e) ++ BitVec.ofBool (decreqBit p) ++ BitVec.ofBool (failedBit p)
    ++ BitVec.ofBool (doneBit p) ++ BitVec.ofBool (busyBit p) ++ phaseCode p)

end Sys2Proof.Machine
end

