-- ==== Sys2Proof/Machine/Ops.lean ====
section
/-! DEFINITION. The named operations over the two address spaces and the registers, error entry and the return from it. -/

namespace Sys2Proof.Machine

/-! ## The address spaces -/

/-- The canonical form: the cells stand in the order of their offsets, which are 0, 1, 2, … with no gap (R40). -/
abbrev Memory.wf (m : Memory) : Prop := m.map Prod.fst = List.range m.length

/-- The byte at an offset; an offset that is not listed does not exist and reads as nothing (R40). -/
def Memory.read : Memory → Nat → Option Byte
  | [], _ => none
  | (a, b) :: m, off => if a = off then some b else Memory.read m off

/-- `MemRead(space, off, n)`: the bytes at `off` to `off + n - 1` in ascending order, if they all exist (R7). -/
def Memory.readBytes (m : Memory) : Nat → Nat → Option (List Byte)
  | _, 0 => some []
  | off, n + 1 =>
    match Memory.read m off, Memory.readBytes m (off + 1) n with
    | some b, some bs => some (b :: bs)
    | _, _ => none

/-- The byte at one offset replaced; no cell is added or moved. -/
def Memory.write (m : Memory) (off : Nat) (b : Byte) : Memory :=
  m.map fun c => if c.1 = off then (c.1, b) else c

/-- The bytes from an offset on replaced, one by one. -/
def Memory.store (m : Memory) : Nat → List Byte → Memory
  | _, [] => m
  | off, b :: bs => Memory.store (Memory.write m off b) (off + 1) bs

/-- `MemWrite(space, off, n, bytes)`, which requires `off + n <=` the space's length (R7). -/
def Memory.writeBytes (m : Memory) (off : Nat) (bs : List Byte) : Option Memory :=
  if off + bs.length ≤ m.length then some (Memory.store m off bs) else none

/-- A space that holds the given bytes from offset `k` on. -/
def Memory.ofBytesFrom : Nat → List Byte → Memory
  | _, [] => []
  | k, b :: bs => (k, b) :: Memory.ofBytesFrom (k + 1) bs

/-- `SRC <- buf`: the delivered list, from offset 0 (R101). -/
def Memory.ofBytes (bs : List Byte) : Memory := Memory.ofBytesFrom 0 bs

/-- "a list of OUTLEN bytes of unspecified values": `n` bytes, the one at offset `i` being `value i` (R121). -/
def Memory.fresh (n : Nat) (value : Nat → Byte) : Memory := (List.range n).map fun i => (i, value i)

/-- The three channel bytes of pixel `idx`: red, green, blue at ascending offsets (R41, R42; log 7). -/
def readPixel (src : Memory) (idx : Nat) : Option (Byte × Byte × Byte) :=
  match Memory.readBytes src (srcOff idx) Config.bppSrc with
  | some [r, g, b] => some (r, g, b)
  | _ => none

/-! ## The state as a whole -/

/-- The state with another block. -/
def State.withBlock (s : State) (b : Block) : State := { s with block := b }

/-- The state with another environment. -/
def State.withEnv (s : State) (e : Env) : State := { s with env := e }

/-- The state with another agenda. -/
def State.withAgenda (s : State) (turns : List Turn) : State := s.withEnv { s.env with agenda := turns }

/-- The state with a value returned to the Host. -/
def State.returning (s : State) (d : BusData) : State := s.withEnv { s.env with busData := some d }

/-- One more `ALLOC` has been performed. -/
def State.countAlloc (s : State) : State := s.withEnv { s.env with allocCount := s.env.allocCount + 1 }

/-- `drop`: the operation changes no state at all (R7, R87, R88). -/
def drop (s : State) : Host.Outcome State Fault Refusal := .next s

/-! ## Error entry and the return from it -/

/-- `raise K()`: the six writes of R170. `EW`, `EH`, `AW`, `AH` are not written: they are the saved context. -/
def Block.raise (k : ErrKind) (b : Block) : Block :=
  { b with err := k, src := [], dst := [], outlen := 0, idx := 0, phase := .failed }

/-- Error entry as the end of the operation that raises it (R170). -/
def raiseError (k : ErrKind) (s : State) : Host.Outcome State Fault Refusal := .next (s.withBlock (s.block.raise k))

/-- The writes that `RELEASE` (R142) and reset (R190) make: every item of state to its reset value. -/
def clearBlock (b : Block) : Block :=
  { b with
    phase := .start, ew := 0, eh := 0, aw := 0, ah := 0, idx := 0, err := .none, outlen := 0, src := [], dst := [] }

/-! ## The Host's register map -/

/-- What a read at a register offset returns, narrower registers zero-extended; `CMD` and every offset from `0x24` up read
as 0 (R21, R22, R148). -/
def regRead (b : Block) (off : Nat) : Word :=
  if off = 0x04 then statusWord b.phase b.err
  else if off = 0x08 then (errCode b.err).setWidth 32
  else if off = 0x0C then b.ew
  else if off = 0x10 then b.eh
  else if off = 0x14 then b.aw
  else if off = 0x18 then b.ah
  else if off = 0x1C then b.idx.setWidth 32
  else if off = 0x20 then b.outlen.setWidth 32
  else 0

end Sys2Proof.Machine
end

