-- ==== Sys2Proof/Machine/Commands.lean ====
section
/-! DEFINITION. The Host commands `NOP`, `PROCESS`, `RELEASE` (R141 to R143). -/

namespace Sys2Proof.Machine

/-- `NOP` (R143). -/
def execNop (s : State) : Host.Outcome State Fault Refusal := drop s

/-- `PROCESS` (R141): enabled in `Start`; dropped elsewhere (R88). -/
def execProcess (s : State) : Host.Outcome State Fault Refusal :=
  if s.block.phase = .start then .next (s.withBlock { s.block with phase := .validateDimensions })
  else drop s

/-- `RELEASE` (R142): enabled in `Done` and `Failed`; dropped elsewhere (R88). It is also the return from an error (R171). -/
def execRelease (s : State) : Host.Outcome State Fault Refusal :=
  if s.block.phase = .done ∨ s.block.phase = .failed then .next (s.withBlock (clearBlock s.block))
  else drop s

/-- "issue the command word v" (R149, R78, R79): a reserved word is dropped (R87). -/
def issueCommand (v : Word) (s : State) : Host.Outcome State Fault Refusal :=
  match decodeCommand v with
  | some .nop => execNop s
  | some .process => execProcess s
  | some .release => execRelease s
  | none => drop s

end Sys2Proof.Machine
end

