-- ==== Sys2Proof/Machine/BusAccess.lean ====
section
/-! DEFINITION. The Host accesses `REGRD`, `REGWR`, `DSTRD` (R148 to R150). -/

namespace Sys2Proof.Machine

/-- `REGRD off` (R148): returns the register at `off`; the block does not change. An offset that is not a multiple of 4 is
refused (R83, U6). -/
def execRegrd (off : Nat) (s : State) : Host.Outcome State Fault Refusal :=
  if off % 4 = 0 then .next (s.returning (.word (regRead s.block off)))
  else .refused (.misalignedRegisterAccess off)

/-- `REGWR off, v` (R149): `CMD` issues a command; `EW` and `EH` are written in `Start`; every other write is dropped. An
offset that is not a multiple of 4 is refused (R83, U6). -/
def execRegwr (off : Nat) (v : Word) (s : State) : Host.Outcome State Fault Refusal :=
  if off % 4 = 0 then
    if off = 0x00 then issueCommand v s
    else if off = 0x0C ∧ s.block.phase = .start then .next (s.withBlock { s.block with ew := v })
    else if off = 0x10 ∧ s.block.phase = .start then .next (s.withBlock { s.block with eh := v })
    else drop s
  else .refused (.misalignedRegisterAccess off)

/-- `DSTRD off` (R150): returns `DST[off]`, enabled in `Done` below `OUTLEN`; not admitted elsewhere (U4). -/
def execDstrd (off : Nat) (s : State) : Host.Outcome State Fault Refusal :=
  if s.block.phase = .done ∧ off < s.block.outlen.toNat then
    match Memory.read s.block.dst off with
    | some b => .next (s.returning (.byte b))
    | none => .fault .dstOutOfRange
  else .refused (.dstReadNotAdmitted off)

end Sys2Proof.Machine
end

