-- ==== Sys2Proof/Machine/DecoderPort.lean ====
section
/-! DEFINITION. The Decoder's responses `DEC.OK`, `DEC.ERR`, `DEC.NOMEM` (R101 to R104). -/

namespace Sys2Proof.Machine

/-- `DEC.OK aw, ah, buf` (R101): dropped outside `Decode` (R88; log 10); in `Decode` a buffer whose length is not
`3 * aw * ah` is refused (R104, U2). The bytes are also kept in `env.delivered`, which only INV7 speaks of (log 14). -/
def execDecOk (aw ah : Word) (buf : List Byte) (s : State) : Host.Outcome State Fault Refusal :=
  if s.block.phase = .decode then
    if buf.length = 3 * aw.toNat * ah.toNat then
      .next
        ((s.withBlock { s.block with aw := aw, ah := ah, src := Memory.ofBytes buf, phase := .checkDimensions }).withEnv
          { s.env with delivered := buf })
    else .refused .decoderBufferLength
  else drop s

/-- `DEC.ERR reason` (R102): raises the kind with that code; dropped outside `Decode` (R88). -/
def execDecErr (reason : DecodeReason) (s : State) : Host.Outcome State Fault Refusal :=
  if s.block.phase = .decode then raiseError (kindOfReason reason) s
  else drop s

/-- `DEC.NOMEM` (R103): raises `AllocationFailure`; dropped outside `Decode` (R88). -/
def execDecNomem (s : State) : Host.Outcome State Fault Refusal :=
  if s.block.phase = .decode then raiseError .allocationFailure s
  else drop s

end Sys2Proof.Machine
end

