-- ==== Sys2Proof/Machine/Packer.lean ====
section
/-! DEFINITION. The Packer's micro-operations `CDIM`, `ALLOC`, `PACKPX`, `FINISH` (R120 to R123). -/

namespace Sys2Proof.Machine

/-- `CDIM` (R120): both comparisons are of all 32 bits. -/
def execCdim (s : State) : Host.Outcome State Fault Refusal :=
  if s.block.phase = .checkDimensions then
    if s.block.aw = s.block.ew ∧ s.block.ah = s.block.eh then .next (s.withBlock { s.block with phase := .pack })
    else raiseError .dimensionMismatch s
  else .refused .engineNotEnabled

/-- `ALLOC alloc_ok` (R121): the bytes of the new buffer are free values (U3; log 5), indexed by the `ALLOC`s performed
before. -/
def execAlloc (allocOk : Bool) (s : State) : Host.Outcome State Fault Refusal :=
  if s.block.phase = .pack ∧ s.block.outlen = 0 then
    if granted allocOk then
      match fit 18 (Config.bppDst * s.block.pixels) with
      | some len =>
        .next
          (s.countAlloc.withBlock
            { s.block with
              outlen := len
              dst := Memory.fresh (Config.bppDst * s.block.pixels) (Config.freshByte s.env.allocCount)
              idx := 0 })
      | none => .fault .registerTooNarrow
    else raiseError .allocationFailure s.countAlloc
  else .refused .engineNotEnabled

/-- `PACKPX` (R122): one pixel read, packed, serialised and written; `IDX` counts it. -/
def execPackpx (s : State) : Host.Outcome State Fault Refusal :=
  let b := s.block
  if b.phase = .pack ∧ b.outlen ≠ 0 ∧ b.idx.toNat < b.pixels then
    match readPixel b.src b.idx.toNat with
    | some (r, g, bl) =>
      match Memory.writeBytes b.dst (dstOff b.idx.toNat) (le16 (pack565 r g bl)) with
      | some dst =>
        match fit 17 (b.idx.toNat + 1) with
        | some idx => .next (s.withBlock { b with dst := dst, idx := idx })
        | none => .fault .registerTooNarrow
      | none => .fault .dstOutOfRange
    | none => .fault .srcOutOfRange
  else .refused .engineNotEnabled

/-- `FINISH` (R123): the DecodedImage is released, and `DST` passes to the Host. -/
def execFinish (s : State) : Host.Outcome State Fault Refusal :=
  if s.block.phase = .pack ∧ s.block.outlen ≠ 0 ∧ s.block.idx.toNat = s.block.pixels then
    .next (s.withBlock { s.block with src := [], phase := .done })
  else .refused .engineNotEnabled

end Sys2Proof.Machine
end

