-- ==== Sys2Proof/Machine/Pipeline.lean ====
section
/-! DEFINITION. The first stage `VDIM` (R144) and the reset event `RESET` (R190). -/

namespace Sys2Proof.Machine

/-- `VDIM` (R144): the range check of both declared dimensions. -/
def execVdim (s : State) : Host.Outcome State Fault Refusal :=
  if s.block.phase = .validateDimensions then
    if inRange s.block.ew ∧ inRange s.block.eh then .next (s.withBlock { s.block with phase := .decode })
    else raiseError .invalidDimensions s
  else .refused .engineNotEnabled

/-- `RESET` (R190): enabled in every phase; every item of state gets its reset value (R28). -/
def execReset (s : State) : Host.Outcome State Fault Refusal := .next (s.withBlock (clearBlock s.block))

end Sys2Proof.Machine
end

