-- ==== Sys2Proof/Machine/Dispatch.lean ====
section
/-! DEFINITION. The meaning of every operation: one arm per constructor of Instr. -/

namespace Sys2Proof.Machine

def exec (i : Instr) (s : State) : Host.Outcome State Fault Refusal :=
  match i with
  | .nop => Sys2Proof.Machine.execNop s
  | .process => Sys2Proof.Machine.execProcess s
  | .release => Sys2Proof.Machine.execRelease s
  | .regrd off => Sys2Proof.Machine.execRegrd off s
  | .regwr off v => Sys2Proof.Machine.execRegwr off v s
  | .dstrd off => Sys2Proof.Machine.execDstrd off s
  | .decOk aw ah buf => Sys2Proof.Machine.execDecOk aw ah buf s
  | .decErr reason => Sys2Proof.Machine.execDecErr reason s
  | .decNomem => Sys2Proof.Machine.execDecNomem s
  | .vdim => Sys2Proof.Machine.execVdim s
  | .cdim => Sys2Proof.Machine.execCdim s
  | .alloc allocOk => Sys2Proof.Machine.execAlloc allocOk s
  | .packpx => Sys2Proof.Machine.execPackpx s
  | .finish => Sys2Proof.Machine.execFinish s
  | .reset => Sys2Proof.Machine.execReset s

end Sys2Proof.Machine
end

