-- ==== Sys2Proof/Machine/Fetch.lean ====
section
/-! DEFINITION. What a step takes before it decodes: the next turn of the agenda, or the Engine's own operation; what it
does with a message that selects no operation; and how a table word is put in the place where the next step takes it. -/

namespace Sys2Proof.Machine

/-- The Engine's selecting state (R84). -/
def selectorOf (b : Block) : Selector where
  phase := phaseCode b.phase
  noBuffer := b.outlen == 0
  progress := if b.idx.toNat < b.pixels then .lt else if b.idx.toNat = b.pixels then .eq else .gt

/-- The Allocator's next answer: the first that State lists, else a free value (R26; log 3). -/
def nextDraw (e : Env) : Bool :=
  match e.draws with
  | d :: _ => d
  | [] => Config.allocDraw e.allocCount

/-- The Engine's turn: its selecting state, and a draw taken from the Allocator if the operation consumes one (R84, R121). -/
def engineMessage (s : State) : Message × State :=
  let sel := selectorOf s.block
  if asksDraw sel then (.select sel (nextDraw s.env), s.withEnv { s.env with draws := s.env.draws.tail })
  else (.select sel false, s)

/-- The message of the next turn and the state without that turn. With no turn left, the Engine has it (log 2). -/
def fetch (s : State) : Message × State :=
  match s.env.agenda with
  | [] => engineMessage s
  | .engine :: rest => engineMessage (s.withAgenda rest)
  | .arrival a :: rest => (.arrival a, s.withAgenda rest)

/-- A message that selects no operation: reserved words are dropped (R87), an Engine without an enabled step waits (R8,
R100, R179; log 18), a misaligned register access is refused (R83, U6). -/
def onReject (r : Reject) (s : State) : Host.Outcome State Fault Refusal :=
  match r with
  | .reservedCommand _ => drop s
  | .reservedResponse _ => drop s
  | .misaligned off => .refused (.misalignedRegisterAccess off)
  | .noOperation => drop s

/-- A block in which the Engine's selecting state is the given one, for the operations of phase `Pack` the least call, of
one pixel (log 17). -/
def seatBlock (sel : Selector) (b : Block) : Block :=
  if sel.phase = 1#3 then { b with phase := .validateDimensions }
  else if sel.phase = 3#3 then { b with phase := .checkDimensions }
  else if sel.noBuffer then { b with phase := .pack, outlen := 0 }
  else
    { b with
      phase := .pack, ew := 1, eh := 1, aw := 1, ah := 1, err := .none, outlen := 2
      idx := if sel.progress = .lt then 0 else 1
      src := Memory.ofBytes [0, 0, 0], dst := Memory.ofBytes [0, 0] }

/-- The state in which the very next step takes the given message (log 17). -/
def seatMessage (m : Message) (s : State) : State :=
  match m with
  | .arrival a => s.withAgenda (.arrival a :: s.env.agenda)
  | .select sel allocOk =>
    (s.withBlock (seatBlock sel s.block)).withEnv
      { s.env with
        agenda := .engine :: s.env.agenda
        draws := if asksDraw sel then allocOk :: s.env.draws else s.env.draws }

end Sys2Proof.Machine
end

