-- ==== Sys2Proof/Machine/Step.lean ====
section
/-! DEFINITION. One step: one agent's turn, one atomic operation (R4, R7, R8). -/

namespace Sys2Proof.Machine

/-- The next turn is taken, decoded and performed. -/
def step (s : State) : Host.Outcome State Fault Refusal :=
  match decode (fetch s).1 with
  | .ok i => exec i (fetch s).2
  | .reject r => onReject r (fetch s).2

/-- The state in which the next step takes the table word (log 17). -/
def State.withFetchWord (s : State) (nbits w : Nat) : State := seatMessage (tableMessage nbits w) s

end Sys2Proof.Machine
end

