-- ==== Sys2Proof/Machine/Calls.lean ====
section
/-! DEFINITION. The block's pseudo-operations `pack`, `process`, `decode_image`: the sequences of operations they stand for
(R91, R151). The first two are turns of the agenda; `decode_image` goes on by what the Host reads, so it is a run. -/

namespace Sys2Proof.Machine

/-- `pack`: `CDIM`, `ALLOC`, `PACKPX` once per pixel, `FINISH`, all of them the Engine's (R151). -/
def packTurns (pixels : Nat) : List Turn := List.replicate (pixels + 3) .engine

/-- `process`: `PROCESS`, `VDIM`, the Decoder's response, then as `pack` (R151). -/
def processTurns (response : Arrival) (pixels : Nat) : List Turn :=
  .arrival (.command 1) :: .engine :: .arrival response :: packTurns pixels

/-- `decode_image` up to its poll: both dimensions are written, then `process` (R151). -/
def decodeImageTurns (width height : Word) (response : Arrival) (pixels : Nat) : List Turn :=
  .arrival (.writeReg 0x0C width) :: .arrival (.writeReg 0x10 height) :: processTurns response pixels

/-! ## The Host's side of `decode_image` -/

/-- What follows on a next state; a fault or a refusal ends the run. -/
def andThen {σ τ : Type} (o : Host.Outcome σ Fault Refusal) (next : σ → Host.Outcome τ Fault Refusal) :
    Host.Outcome τ Fault Refusal :=
  match o with
  | .next x => next x
  | .fault f => .fault f
  | .refused r => .refused r

/-- A turn that returns a value to the Host (R83). -/
def Turn.reads : Turn → Bool
  | .engine => false
  | .arrival (.command _) => false
  | .arrival (.response _ _ _ _) => false
  | .arrival (.readReg _) => true
  | .arrival (.writeReg _ _) => false
  | .arrival (.readDst _) => true
  | .arrival .resetLine => false

/-- The given turns, one step each, before any other turn; the second part is what the reads among them returned, in order. -/
def transact : List Turn → State → Host.Outcome (State × List BusData) Fault Refusal
  | [], s => .next (s, [])
  | turn :: turns, s =>
    andThen (step (s.withAgenda (turn :: s.env.agenda))) fun t =>
      andThen (transact turns t) fun r => .next (r.1, if turn.reads then t.env.busData.toList ++ r.2 else r.2)

/-- The word of `STATUS` shows `DONE` or `FAILED` (R20). -/
def showsEnd (status : Word) : Bool := status.getLsbD 4 || status.getLsbD 5

/-- "poll `REGRD STATUS` until `DONE` or `FAILED`" (R151): before its `k`-th poll the Host leaves the Engine `gaps[k]` turns;
the first word that shows the end is the answer, and there is none if no poll shows it (log 24). -/
def poll : List Nat → State → Host.Outcome (State × Option Word) Fault Refusal
  | [], s => .next (s, none)
  | gap :: gaps, s =>
    andThen (transact (List.replicate gap .engine ++ [.arrival (.readReg 0x04)]) s) fun r =>
      match r.2 with
      | [.word status] => if showsEnd status then .next (r.1, some status) else poll gaps r.1
      | _ => poll gaps r.1

/-- The register read first after the poll: `OUTLEN` on `DONE`, `ERR` on `FAILED` (R151). -/
def readOutRegister (status : Word) : Nat := if status.getLsbD 4 then 0x20 else 0x08

/-- The rest of the read-out, by the polled `STATUS` and by what that register held: on `DONE` every byte of `DST`, on `FAILED`
the four dimension registers for kind 6 and nothing for another kind; then `RELEASE` (R151). -/
def readOutTurns (status value : Word) : List Turn :=
  (if status.getLsbD 4 then (List.range value.toNat).map fun off => .arrival (.readDst off)
    else if value = 6 then
      [.arrival (.readReg 0x0C), .arrival (.readReg 0x10), .arrival (.readReg 0x14), .arrival (.readReg 0x18)]
    else []) ++ [.arrival (.command 2)]

/-- What `decode_image` returns (R151): the packed bytes, or the error's code with `EW`, `EH`, `AW`, `AH` for kind 6. -/
inductive CallResult where
  | packed (bytes : List Byte)
  | error (code : Word) (dims : List Word)
  /-- No poll showed the end, so the Host has nothing to return yet. -/
  | pending
  deriving DecidableEq, Repr

/-- The bytes among what was read. -/
def bytesOf (reads : List BusData) : List Byte :=
  reads.filterMap fun d => match d with
    | .byte b => some b
    | .word _ => none

/-- The words among what was read. -/
def wordsOf (reads : List BusData) : List Word :=
  reads.filterMap fun d => match d with
    | .byte _ => none
    | .word v => some v

/-- The read-out after a poll that showed the end, and `RELEASE` (R151). -/
def readOut (status : Word) (s : State) : Host.Outcome (State × CallResult) Fault Refusal :=
  andThen (transact [.arrival (.readReg (readOutRegister status))] s) fun r =>
    let value := (wordsOf r.2).headD 0
    andThen (transact (readOutTurns status value) r.1) fun q =>
      .next (q.1, if status.getLsbD 4 then .packed (bytesOf q.2) else .error value (wordsOf q.2))

/-- `decode_image(data, width, height)` (R91, R151), with the Decoder's response to `data`; `process` gives the Engine the turns of
a call of `pixels` pixels before the first poll, and `gaps` those between the polls. -/
def decodeImage (width height : Word) (response : Arrival) (pixels : Nat) (gaps : List Nat) (s : State) :
    Host.Outcome (State × CallResult) Fault Refusal :=
  andThen (transact (decodeImageTurns width height response pixels) s) fun r =>
    andThen (poll gaps r.1) fun q =>
      match q.2 with
      | some status => readOut status q.1
      | none => .next (q.1, .pending)

end Sys2Proof.Machine
end

