-- ==== Sys2Proof/Safety.lean ====
section
/-! DEFINITION. The invariants of R27, the runs of the machine, and what a safe run is. -/

namespace Sys2Proof.Machine

/-- `1 <= v <= 256`, the legal dimensions (R5, R27). -/
def legalDim (v : Word) : Prop := 1 ≤ v.toNat ∧ v.toNat ≤ 256

/-- `1 <= EW <= 256` and `1 <= EH <= 256`. -/
def legalDims (b : Block) : Prop := legalDim b.ew ∧ legalDim b.eh

/-- The consequents of INV1 (R27). -/
structure Untouched (b : Block) : Prop where
  aw : b.aw = 0
  ah : b.ah = 0
  idx : b.idx = 0
  err : b.err = .none
  outlen : b.outlen = 0
  src : b.src = []
  dst : b.dst = []

/-- Pixel `i` of `dst` is the serialised RGB565 word of pixel `i` of `src` (the clause of INV6 and INV7). -/
def PixelPacked (src dst : Memory) (i : Nat) : Prop :=
  ∃ r g bl, readPixel src i = some (r, g, bl) ∧ Memory.readBytes dst (dstOff i) 2 = some (le16 (pack565 r g bl))

/-- R27's table, INV1 to INV12. `delivered` is the buffer that `DEC.OK` delivered in this call, of which INV7 speaks. -/
structure Rule27 (b : Block) (delivered : List Byte) : Prop where
  inv1 : b.phase = .start ∨ b.phase = .validateDimensions → Untouched b
  inv2 : b.phase = .decode → legalDims b ∧ Untouched b
  inv3 : b.phase = .checkDimensions → legalDims b ∧ b.idx = 0 ∧ b.err = .none ∧ b.outlen = 0 ∧ b.dst = [] ∧
    b.src.length = 3 * b.aw.toNat * b.ah.toNat
  inv4 : b.phase = .pack → legalDims b ∧ b.aw = b.ew ∧ b.ah = b.eh ∧ b.err = .none ∧ b.src.length = 3 * b.pixels
  inv5 : b.phase = .pack → b.outlen = 0 → b.idx = 0 ∧ b.dst = []
  inv6 : b.phase = .pack → b.outlen ≠ 0 → b.outlen.toNat = 2 * b.pixels ∧ b.idx.toNat ≤ b.pixels ∧
    ∀ i, i < b.idx.toNat → PixelPacked b.src b.dst i
  inv7 : b.phase = .done → legalDims b ∧ b.aw = b.ew ∧ b.ah = b.eh ∧ b.err = .none ∧ b.idx.toNat = b.pixels ∧
    b.outlen.toNat = 2 * b.pixels ∧ b.src = [] ∧
    ∀ i, i < b.pixels → PixelPacked (Memory.ofBytes delivered) b.dst i
  inv8 : b.phase = .failed → 1 ≤ (errCode b.err).toNat ∧ (errCode b.err).toNat ≤ 7 ∧ b.idx = 0 ∧ b.outlen = 0 ∧
    b.src = [] ∧ b.dst = []
  inv9 : b.phase = .failed → 1 ≤ (errCode b.err).toNat → (errCode b.err).toNat ≤ 5 → b.aw = 0 ∧ b.ah = 0
  inv10 : b.phase = .failed → (errCode b.err).toNat = 6 → legalDims b ∧ (b.aw ≠ b.ew ∨ b.ah ≠ b.eh)
  inv11 : b.phase = .failed → (errCode b.err).toNat = 7 →
    legalDims b ∧ ((b.aw = 0 ∧ b.ah = 0) ∨ (b.aw = b.ew ∧ b.ah = b.eh))
  inv12 : (phaseCode b.phase).toNat ≠ 7 ∧ (errCode b.err).toNat ≤ 7 ∧ b.idx.toNat ≤ 65536 ∧ b.outlen.toNat ≤ 131072 ∧
    b.dst.length = b.outlen.toNat

/-- The invariant that every step keeps: R27, the canonical form of both address spaces, and that `SRC` still holds what
was delivered while the call needs it. -/
structure MachineInv (s : State) : Prop where
  rule27 : Rule27 s.block s.env.delivered
  srcWf : Memory.wf s.block.src
  dstWf : Memory.wf s.block.dst
  srcDelivered : s.block.phase = .checkDimensions ∨ s.block.phase = .pack → s.block.src = Memory.ofBytes s.env.delivered

/-- `k` steps, stopping at the first fault or refusal. -/
def run : Nat → State → Host.Outcome State Fault Refusal
  | 0, s => .next s
  | k + 1, s =>
    match step s with
    | .next s' => run k s'
    | .fault r => .fault r
    | .refused r => .refused r

/-- The reset state before a given stream of inputs (R26, R28). -/
def startedWith (agenda : List Turn) (draws : List Bool) : State where
  block := Block.reset
  env := { Env.reset with agenda := agenda, draws := draws }

/-- "reachable from reset under the rules of this spec" (R27): under some stream of inputs, after some number of steps. -/
def Reached (s : State) : Prop := ∃ agenda draws k, run k (startedWith agenda draws) = .next s

/-- A step is safe if it does not fault: it answers a next state, or refuses an input that the spec admits nowhere. -/
def SafeStep (s : State) : Prop := ∀ f, step s ≠ .fault f

/-- The Engine has an enabled step: its phases, by R14 and R152. -/
def enginePhase (p : Phase) : Prop := p = .validateDimensions ∨ p = .checkDimensions ∨ p = .pack

/-- The operations that only the Engine performs (R86). -/
def engineOp : Instr → Prop
  | .nop => False
  | .process => False
  | .release => False
  | .regrd _ => False
  | .regwr _ _ => False
  | .dstrd _ => False
  | .decOk _ _ _ => False
  | .decErr _ => False
  | .decNomem => False
  | .vdim => True
  | .cdim => True
  | .alloc _ => True
  | .packpx => True
  | .finish => True
  | .reset => False

/-- The operations that only the Host performs (R86). -/
def hostOp : Instr → Prop
  | .nop => True
  | .process => True
  | .release => True
  | .regrd _ => True
  | .regwr _ _ => True
  | .dstrd _ => True
  | .decOk _ _ _ => False
  | .decErr _ => False
  | .decNomem => False
  | .vdim => False
  | .cdim => False
  | .alloc _ => False
  | .packpx => False
  | .finish => False
  | .reset => False

/-- An edge of R140's graph, by the operation that takes it. A write of a command word to `CMD` is that command (R83). -/
inductive PhaseEdge : Instr → Phase → Phase → Prop where
  | process : PhaseEdge .process .start .validateDimensions
  | writeProcess : PhaseEdge (.regwr 0x00 1) .start .validateDimensions
  | vdimOk : PhaseEdge .vdim .validateDimensions .decode
  | vdimFail : PhaseEdge .vdim .validateDimensions .failed
  | decOk (aw ah : Word) (buf : List Byte) : PhaseEdge (.decOk aw ah buf) .decode .checkDimensions
  | decErr (reason : DecodeReason) : PhaseEdge (.decErr reason) .decode .failed
  | decNomem : PhaseEdge .decNomem .decode .failed
  | cdimOk : PhaseEdge .cdim .checkDimensions .pack
  | cdimFail : PhaseEdge .cdim .checkDimensions .failed
  | allocDenied : PhaseEdge (.alloc false) .pack .failed
  | finish : PhaseEdge .finish .pack .done
  | releaseDone : PhaseEdge .release .done .start
  | releaseFailed : PhaseEdge .release .failed .start
  | writeReleaseDone : PhaseEdge (.regwr 0x00 2) .done .start
  | writeReleaseFailed : PhaseEdge (.regwr 0x00 2) .failed .start
  | reset (p : Phase) : PhaseEdge .reset p .start

end Sys2Proof.Machine
end

