-- ==== Sys2Proof/Certificates/Slice0/Obligations.lean ====
section
/-! DEFINITION. The statements for the provers. Each says in its docstring which rule of spec/ it formalises. -/

open Sys2Proof Sys2Proof.Machine

/-! ## Reset and error entry -/

/-- R28: every item of state at its reset value, and `STATUS` with it. -/
def Obligations.ResetLeavesEveryItemAtItsValue : Prop :=
  State.reset.block.phase = .start ∧ State.reset.block.ew = 0 ∧ State.reset.block.eh = 0 ∧
  State.reset.block.aw = 0 ∧ State.reset.block.ah = 0 ∧ State.reset.block.idx = 0 ∧ State.reset.block.err = .none ∧
  State.reset.block.outlen = 0 ∧ State.reset.block.src = [] ∧ State.reset.block.src.length = 0 ∧
  State.reset.block.dst = [] ∧ statusWord State.reset.block.phase State.reset.block.err = 0x00000000#32

/-- The reset event, enabled in every phase, gives every item the value of R28; the state after it is the state after `RELEASE`
(R190); and the block then performs nothing on its own: that a step with nothing presented answers the same state is the
model's choice of schedule and of waiting (log 2, log 18). -/
def Obligations.ResetEventRestoresEveryItem : Prop :=
  (∀ s, ∃ t, exec .reset s = .next t ∧ t.env = s.env ∧ t.block.phase = .start ∧ t.block.ew = 0 ∧ t.block.eh = 0 ∧
    t.block.aw = 0 ∧ t.block.ah = 0 ∧ t.block.idx = 0 ∧ t.block.err = .none ∧ t.block.outlen = 0 ∧ t.block.src = [] ∧
    t.block.dst = [] ∧ statusWord t.block.phase t.block.err = 0x00000000#32 ∧
    ∀ u v, (u.block.phase = .done ∨ u.block.phase = .failed) → exec .release u = .next v → v.block = t.block) ∧
  (∀ s, s.block = State.reset.block → s.env.agenda = [] → step s = .next s)

/-- R191: a reset, in the middle of a call or in `Done`, abandons it with both buffers emptied and no error, and a Decoder
response that comes afterwards is dropped (a `DEC.OK` with its buffer of `3 * aw * ah` bytes; log 10 for others). -/
def Obligations.ResetDuringACallAbandonsIt : Prop :=
  ∀ s, ∃ t, exec .reset s = .next t ∧ t.block.phase = .start ∧ t.block.err = .none ∧ t.block.src = [] ∧ t.block.dst = [] ∧
    (∀ aw ah buf, buf.length = 3 * aw.toNat * ah.toNat → exec (.decOk aw ah buf) t = .next t) ∧
    (∀ reason, exec (.decErr reason) t = .next t) ∧ exec .decNomem t = .next t

/-- R170: whichever operation raises, error entry writes `ERR`, `SRC`, `DST`, `OUTLEN`, `IDX` and `PHASE`, with a kind of
code 1 to 7, and nothing else of the block; where R27 holds, `DST`, `OUTLEN` and `IDX` were empty and 0 already. -/
def Obligations.ErrorEntryWritesSixItems : Prop :=
  ∀ i s t, exec i s = .next t → s.block.phase ≠ .failed → t.block.phase = .failed →
    1 ≤ (errCode t.block.err).toNat ∧ (errCode t.block.err).toNat ≤ 7 ∧
    t.block = { s.block with err := t.block.err, src := [], dst := [], outlen := 0, idx := 0, phase := .failed } ∧
    (MachineInv s → s.block.dst = [] ∧ s.block.outlen = 0 ∧ s.block.idx = 0)

/-- R160: each kind is raised by the operations R161 to R167 list, and by nothing else. -/
def Obligations.EachErrorKindHasItsRaisers : Prop :=
  ∀ i s t, exec i s = .next t → s.block.phase ≠ .failed → t.block.phase = .failed →
    (t.block.err = .invalidDimensions ∧ i = .vdim ∧ ¬legalDims s.block) ∨
    (t.block.err = .malformedHeader ∧ i = .decErr .malformedHeader) ∨
    (t.block.err = .truncatedData ∧ i = .decErr .truncatedData) ∨
    (t.block.err = .unsupportedFeature ∧ i = .decErr .unsupportedFeature) ∨
    (t.block.err = .internalDecodeFailure ∧ i = .decErr .internalDecodeFailure) ∨
    (t.block.err = .dimensionMismatch ∧ i = .cdim ∧ ¬(s.block.aw = s.block.ew ∧ s.block.ah = s.block.eh)) ∨
    (t.block.err = .allocationFailure ∧ (i = .decNomem ∨ (i = .alloc false ∧ Config.allocCanFail = true)))

/-- R171: in `Failed` no Engine or Decoder operation has an effect, so no second error occurs, and the return is `RELEASE`,
which restores the reset state and does not resume the call. -/
def Obligations.FailedIsLeftOnlyByReleaseOrReset : Prop :=
  ∀ i s t, s.block.phase = .failed → exec i s = .next t →
    t.block = s.block ∨
    ((i = .release ∨ i = .regwr 0 2 ∨ i = .reset) ∧ t.block = State.reset.block)

/-! ## Host commands -/

/-- R143: `NOP` is the word `0x00000000` and changes nothing, in every phase. -/
def Obligations.NopChangesNothing : Prop :=
  decode (.arrival (.command 0x00000000#32)) = .ok .nop ∧ ∀ s, exec .nop s = .next s

/-- R141: `PROCESS` is the word `0x00000001`; in `Start` it moves to `ValidateDimensions` and changes nothing else; in
every other phase it is dropped. Until the return to `Start`, `EW` and `EH` keep their values. -/
def Obligations.ProcessStartsACall : Prop :=
  decode (.arrival (.command 0x00000001#32)) = .ok .process ∧
  (∀ s, s.block.phase = .start →
    exec .process s = .next { s with block := { s.block with phase := .validateDimensions } }) ∧
  (∀ s, s.block.phase ≠ .start → exec .process s = .next s) ∧
  (∀ s t, s.block.phase = .start → exec .process s = .next t → busyBit t.block.phase = true) ∧
  (∀ i s t, s.block.phase ≠ .start → exec i s = .next t → t.block.phase ≠ .start →
    t.block.ew = s.block.ew ∧ t.block.eh = s.block.eh)

/-- R142: `RELEASE` is the word `0x00000002`; in `Done` and `Failed` it gives every item its reset value; in every other phase
it is dropped. No operation leads from `Done` or `Failed` to any phase but `Start`. -/
def Obligations.ReleaseRestoresTheResetState : Prop :=
  decode (.arrival (.command 0x00000002#32)) = .ok .release ∧
  (∀ s, s.block.phase = .done ∨ s.block.phase = .failed →
    exec .release s = .next
      { s with
        block := { phase := .start, ew := 0, eh := 0, aw := 0, ah := 0, idx := 0, err := .none, outlen := 0, src := [],
                   dst := [] } }) ∧
  (∀ s, s.block.phase = .done ∨ s.block.phase = .failed → ∀ t, exec .release s = .next t →
    t.block = State.reset.block ∧ statusWord t.block.phase t.block.err = 0) ∧
  (∀ s, s.block.phase ≠ .done → s.block.phase ≠ .failed → exec .release s = .next s) ∧
  (∀ i s t, s.block.phase = .done ∨ s.block.phase = .failed → exec i s = .next t →
    t.block.phase = s.block.phase ∨ t.block.phase = .start)

/-! ## Host accesses -/

/-- R148 and R22: `REGRD` at a multiple of 4 returns the register of the map, narrower ones zero-extended, and changes
nothing of the block. -/
def Obligations.RegrdReturnsTheRegisterMap : Prop :=
  ∀ s off, off % 4 = 0 → ∃ v : Word,
    exec (.regrd off) s = .next { s with env := { s.env with busData := some (.word v) } } ∧
    (off = 0x00 → v = 0) ∧ (off = 0x04 → v = statusWord s.block.phase s.block.err) ∧
    (off = 0x08 → v.toNat = (errCode s.block.err).toNat) ∧ (off = 0x0C → v = s.block.ew) ∧
    (off = 0x10 → v = s.block.eh) ∧ (off = 0x14 → v = s.block.aw) ∧ (off = 0x18 → v = s.block.ah) ∧
    (off = 0x1C → v.toNat = s.block.idx.toNat) ∧ (off = 0x20 → v.toNat = s.block.outlen.toNat) ∧ (0x24 ≤ off → v = 0)

/-- R149: what `REGWR` at a multiple of 4 does: a command is issued, `EW` or `EH` is written in `Start`, and every other
write is dropped. -/
def Obligations.RegwrWritesOnlyWhatTheHostMayWrite : Prop :=
  ∀ s v,
    exec (.regwr 0x00 0) s = exec .nop s ∧ exec (.regwr 0x00 1) s = exec .process s ∧
    exec (.regwr 0x00 2) s = exec .release s ∧ (v ≠ 0 → v ≠ 1 → v ≠ 2 → exec (.regwr 0x00 v) s = .next s) ∧
    (s.block.phase = .start →
      exec (.regwr 0x0C v) s = .next { s with block := { s.block with ew := v } } ∧
      exec (.regwr 0x10 v) s = .next { s with block := { s.block with eh := v } }) ∧
    (s.block.phase ≠ .start → exec (.regwr 0x0C v) s = .next s ∧ exec (.regwr 0x10 v) s = .next s) ∧
    (∀ off, off % 4 = 0 → off ≠ 0x00 → off ≠ 0x0C → off ≠ 0x10 → exec (.regwr off v) s = .next s)

/-- R150: `DSTRD` in `Done` below `OUTLEN` returns the byte of `DST` at that offset and changes nothing of the block;
anywhere else it is refused. The premises on `DST` are INV12 and the canonical form. -/
def Obligations.DstrdReadsOneByteInDone : Prop :=
  (∀ s off, s.block.phase = .done → off < s.block.outlen.toNat → Memory.wf s.block.dst →
    s.block.dst.length = s.block.outlen.toNat →
    ∃ b, Memory.read s.block.dst off = some b ∧
      exec (.dstrd off) s = .next { s with env := { s.env with busData := some (.byte b) } }) ∧
  (∀ s off, ¬(s.block.phase = .done ∧ off < s.block.outlen.toNat) →
    exec (.dstrd off) s = .refused (.dstReadNotAdmitted off))

/-- R83: a register access at an offset that is not a multiple of 4 is refused, in a step and in `exec`. -/
def Obligations.MisalignedRegisterAccessIsRefused : Prop :=
  ∀ s off, off % 4 ≠ 0 →
    exec (.regrd off) s = .refused (.misalignedRegisterAccess off) ∧
    (∀ v, exec (.regwr off v) s = .refused (.misalignedRegisterAccess off)) ∧
    (∀ rest, s.env.agenda = .arrival (.readReg off) :: rest → step s = .refused (.misalignedRegisterAccess off)) ∧
    (∀ v rest, s.env.agenda = .arrival (.writeReg off v) :: rest → step s = .refused (.misalignedRegisterAccess off))

/-- R20: each field of `STATUS`, that a write to it is dropped and that a read of it changes nothing of the block. -/
def Obligations.StatusIsAViewOfPhaseAndErr : Prop :=
  (∀ p e,
    (statusWord p e).extractLsb' 0 3 = phaseCode p ∧
    ((statusWord p e).getLsbD 3 = true ↔ p = .validateDimensions ∨ p = .decode ∨ p = .checkDimensions ∨ p = .pack) ∧
    ((statusWord p e).getLsbD 4 = true ↔ p = .done) ∧ ((statusWord p e).getLsbD 5 = true ↔ p = .failed) ∧
    ((statusWord p e).getLsbD 6 = true ↔ p = .decode) ∧
    ((statusWord p e).getLsbD 7 = true ↔ p = .failed ∧ errCode e = 7) ∧ (statusWord p e).extractLsb' 8 24 = 0) ∧
  (∀ s v, exec (.regwr 0x04 v) s = .next s) ∧
  (∀ s t, exec (.regrd 0x04) s = .next t → t.block = s.block ∧
    t.env.busData = some (.word (statusWord s.block.phase s.block.err)))

/-- Exactly one of `PHASE == Start`, `BUSY`, `DONE`, `FAILED` holds: the inference that R20 marks "derived: from rule R14". -/
def Obligations.StatusShowsExactlyOneSituation : Prop :=
  ∀ p e,
    (p = .start ∧ ¬(statusWord p e).getLsbD 3 ∧ ¬(statusWord p e).getLsbD 4 ∧ ¬(statusWord p e).getLsbD 5) ∨
    (p ≠ .start ∧ (statusWord p e).getLsbD 3 ∧ ¬(statusWord p e).getLsbD 4 ∧ ¬(statusWord p e).getLsbD 5) ∨
    (p ≠ .start ∧ ¬(statusWord p e).getLsbD 3 ∧ (statusWord p e).getLsbD 4 ∧ ¬(statusWord p e).getLsbD 5) ∨
    (p ≠ .start ∧ ¬(statusWord p e).getLsbD 3 ∧ ¬(statusWord p e).getLsbD 4 ∧ (statusWord p e).getLsbD 5)

/-! ## Decoder responses -/

/-- R101: `DEC.OK` in `Decode` with a buffer of `3 * aw * ah` bytes loads `AW`, `AH`, `SRC` and moves to
`CheckDimensions`, with no cap on `aw` and `ah`; every other item keeps its value. -/
def Obligations.DecOkDeliversTheImage : Prop :=
  (∀ aw ah buf, decode (.arrival (.response 0x00000010#32 aw ah buf)) = .ok (.decOk aw ah buf)) ∧
  ∀ s aw ah buf, s.block.phase = .decode → buf.length = 3 * aw.toNat * ah.toNat →
    ∃ t, exec (.decOk aw ah buf) s = .next t ∧ t.block.aw = aw ∧ t.block.ah = ah ∧
      t.block.src.length = 3 * aw.toNat * ah.toNat ∧ (∀ a, Memory.read t.block.src a = buf[a]?) ∧
      t.block = { s.block with aw := aw, ah := ah, src := t.block.src, phase := .checkDimensions } ∧
      t.env = { s.env with delivered := buf }

/-- R102: `DEC.ERR reason` is the word `0x00000011 | (reason << 8)`; in `Decode` it raises the kind with that code, by the
writes of R170, which leave `AW` and `AH` as they are; and a word with another reason decodes to nothing. -/
def Obligations.DecErrPropagatesTheReason : Prop :=
  (∀ reason w1 w2 buf,
    decode (.arrival (.response (0x00000011#32 ||| ((reasonCode reason).setWidth 32 <<< 8)) w1 w2 buf)) =
      .ok (.decErr reason)) ∧
  (∀ (f : BitVec 4) w1 w2 buf, f.toNat < 2 ∨ 5 < f.toNat →
    decode (.arrival (.response (0x00000011#32 ||| (f.setWidth 32 <<< 8)) w1 w2 buf)) =
      .reject (.reservedResponse (0x00000011#32 ||| (f.setWidth 32 <<< 8)))) ∧
  ∀ s reason, s.block.phase = .decode →
    ∃ k, errCode k = reasonCode reason ∧
      exec (.decErr reason) s = .next
        { s with block := { s.block with err := k, src := [], dst := [], outlen := 0, idx := 0, phase := .failed } } ∧
      statusWord .failed k = 0x00000026#32

/-- R103: `DEC.NOMEM` is the word `0x00000012`; in `Decode` it raises `AllocationFailure`, and `STATUS.FATAL` reads 1. -/
def Obligations.DecNomemRaisesAllocationFailure : Prop :=
  (∀ w1 w2 buf, decode (.arrival (.response 0x00000012#32 w1 w2 buf)) = .ok .decNomem) ∧
  ∀ s, s.block.phase = .decode →
    exec .decNomem s = .next
      { s with block :=
          { s.block with err := .allocationFailure, src := [], dst := [], outlen := 0, idx := 0, phase := .failed } } ∧
    fatalBit .failed .allocationFailure = true ∧ statusWord .failed .allocationFailure = 0x000000A6#32

/-- R104: a `DEC.OK` in `Decode` whose buffer has not `3 * aw * ah` bytes is refused; a zero dimension is admitted with an
empty buffer, and `CDIM` then finds the mismatch where the declared dimensions are legal. -/
def Obligations.DecOkOfTheWrongLengthIsRefused : Prop :=
  (∀ s aw ah buf, s.block.phase = .decode → buf.length ≠ 3 * aw.toNat * ah.toNat →
    exec (.decOk aw ah buf) s = .refused .decoderBufferLength) ∧
  (∀ s aw ah, s.block.phase = .decode → legalDims s.block → aw = 0 ∨ ah = 0 →
    ∃ t u, exec (.decOk aw ah []) s = .next t ∧ exec .cdim t = .next u ∧ u.block.phase = .failed ∧
      u.block.err = .dimensionMismatch)

/-- Outside `Decode` a `DEC.OK` is dropped whatever the length of its buffer: R88 and R104 both speak of a wrong length there,
and the model follows R88 (the model's reading, log 10). -/
def Obligations.DecOkOutsideDecodeIsDroppedWhateverItsLength : Prop :=
  ∀ s aw ah buf, s.block.phase ≠ .decode → exec (.decOk aw ah buf) s = .next s

/-! ## The Engine's operations -/

/-- R144: `VDIM` passes to `Decode` exactly when both dimensions are 1 to 256; otherwise it raises `InvalidDimensions`, one
kind for every cause, and `EW`, `EH` keep the offending values. -/
def Obligations.VdimChecksTheRange : Prop :=
  ∀ s, s.block.phase = .validateDimensions →
    ((1 ≤ s.block.ew.toNat ∧ s.block.ew.toNat ≤ 256) ∧ (1 ≤ s.block.eh.toNat ∧ s.block.eh.toNat ≤ 256) →
      exec .vdim s = .next { s with block := { s.block with phase := .decode } } ∧ decreqBit .decode = true) ∧
    (¬((1 ≤ s.block.ew.toNat ∧ s.block.ew.toNat ≤ 256) ∧ (1 ≤ s.block.eh.toNat ∧ s.block.eh.toNat ≤ 256)) →
      exec .vdim s = .next
        { s with block :=
            { s.block with err := .invalidDimensions, src := [], dst := [], outlen := 0, idx := 0, phase := .failed } })

/-- R120: `CDIM` compares all 32 bits of both pairs; on a match nothing but `PHASE` changes; on a mismatch it raises
`DimensionMismatch` and the four dimension registers keep their values. -/
def Obligations.CdimComparesTheDimensions : Prop :=
  ∀ s, s.block.phase = .checkDimensions →
    (s.block.aw = s.block.ew ∧ s.block.ah = s.block.eh →
      exec .cdim s = .next { s with block := { s.block with phase := .pack } }) ∧
    (s.block.aw ≠ s.block.ew ∨ s.block.ah ≠ s.block.eh →
      exec .cdim s = .next
        { s with block :=
            { s.block with err := .dimensionMismatch, src := [], dst := [], outlen := 0, idx := 0, phase := .failed } })

/-- R121: a granted `ALLOC` makes `DST` exactly `2 * EW * EH` bytes of unspecified values, writes `OUTLEN` and clears `IDX`;
a draw of 0, which there is only where `ALLOC_CAN_FAIL` holds, raises `AllocationFailure`. Nothing is said of the values of
the new bytes. -/
def Obligations.AllocObtainsTheBuffer : Prop :=
  ∀ s, s.block.phase = .pack → s.block.outlen = 0 → legalDims s.block →
    (∃ t, exec (.alloc true) s = .next t ∧ t.block.outlen.toNat = 2 * (s.block.ew.toNat * s.block.eh.toNat) ∧
      Memory.wf t.block.dst ∧ t.block.dst.length = t.block.outlen.toNat ∧ t.block.outlen ≠ 0 ∧
      t.block = { s.block with outlen := t.block.outlen, dst := t.block.dst, idx := 0 } ∧
      t.env = { s.env with allocCount := s.env.allocCount + 1 }) ∧
    (Config.allocCanFail = false ∨
      exec (.alloc false) s = .next
        { s with
          block := { s.block with err := .allocationFailure, src := [], dst := [], outlen := 0, idx := 0, phase := .failed }
          env := { s.env with allocCount := s.env.allocCount + 1 } })

/-- Where `ALLOC_CAN_FAIL` is false there is no draw of 0 (R121), and the model lets `ALLOC` with one act as with a draw of 1
(the model's choice, log 21). -/
def Obligations.AllocCannotBeDeniedWhereItCannotFail : Prop :=
  ∀ s, Config.allocCanFail = true ∨ exec (.alloc false) s = exec (.alloc true) s

/-- R122: `PACKPX` reads the three bytes of pixel `IDX`, writes the two bytes of its RGB565 word, low byte first, adds 1 to
`IDX`, and changes no other byte and no other item. The premises are INV4, INV6, INV12 and the canonical form. -/
def Obligations.PackpxConvertsOnePixel : Prop :=
  ∀ s, s.block.phase = .pack → s.block.outlen ≠ 0 → s.block.idx.toNat < s.block.pixels → legalDims s.block →
    Memory.wf s.block.src → s.block.src.length = 3 * s.block.pixels → Memory.wf s.block.dst →
    s.block.dst.length = s.block.outlen.toNat → s.block.outlen.toNat = 2 * s.block.pixels →
    ∃ r g b t, Memory.read s.block.src (srcOff s.block.idx.toNat) = some r ∧
      Memory.read s.block.src (srcOff s.block.idx.toNat + 1) = some g ∧
      Memory.read s.block.src (srcOff s.block.idx.toNat + 2) = some b ∧
      exec .packpx s = .next t ∧
      Memory.read t.block.dst (dstOff s.block.idx.toNat) = some ((pack565 r g b).extractLsb' 0 8) ∧
      Memory.read t.block.dst (dstOff s.block.idx.toNat + 1) = some ((pack565 r g b).extractLsb' 8 8) ∧
      (∀ a, a ≠ dstOff s.block.idx.toNat → a ≠ dstOff s.block.idx.toNat + 1 →
        Memory.read t.block.dst a = Memory.read s.block.dst a) ∧
      t.block.idx.toNat = s.block.idx.toNat + 1 ∧
      t.block = { s.block with dst := t.block.dst, idx := t.block.idx } ∧ t.env = s.env

/-- R123: `FINISH`, when every pixel is converted, releases `SRC` and moves to `Done`; everything else keeps its value, and
`STATUS.DONE` reads 1. -/
def Obligations.FinishReleasesTheImage : Prop :=
  ∀ s, s.block.phase = .pack → s.block.outlen ≠ 0 → s.block.idx.toNat = s.block.pixels →
    exec .finish s = .next { s with block := { s.block with src := [], phase := .done } } ∧ doneBit .done = true

/-- R8: an Engine operation is performed only where it is enabled: `exec` refuses it in every other state, and no turn of the
Engine ever selects it there (the choice of a refusal is the model's, log 11). -/
def Obligations.EngineOperationsOnlyWhereEnabled : Prop :=
  ∀ s,
    (s.block.phase ≠ .validateDimensions → exec .vdim s = .refused .engineNotEnabled) ∧
    (s.block.phase ≠ .checkDimensions → exec .cdim s = .refused .engineNotEnabled) ∧
    (∀ ok, ¬(s.block.phase = .pack ∧ s.block.outlen = 0) → exec (.alloc ok) s = .refused .engineNotEnabled) ∧
    (¬(s.block.phase = .pack ∧ s.block.outlen ≠ 0 ∧ s.block.idx.toNat < s.block.pixels) →
      exec .packpx s = .refused .engineNotEnabled) ∧
    (¬(s.block.phase = .pack ∧ s.block.outlen ≠ 0 ∧ s.block.idx.toNat = s.block.pixels) →
      exec .finish s = .refused .engineNotEnabled) ∧
    step s ≠ .refused .engineNotEnabled

/-! ## The data path and the arithmetic -/

/-- R112 and R113: `Q5` keeps `c[7:3]` and `Q6` keeps `c[7:2]`, both by truncation; the values the rules give. -/
def Obligations.QuantisationTruncates : Prop :=
  (∀ c : Byte,
    (q5 c).toNat = c.toNat / 8 ∧ q5 c = (c >>> 3).setWidth 5 ∧ q5 c = c.extractLsb' 3 5 ∧ (q5 c).toNat ≤ 31 ∧
    (q6 c).toNat = c.toNat / 4 ∧ q6 c = (c >>> 2).setWidth 6 ∧ q6 c = c.extractLsb' 2 6 ∧ (q6 c).toNat ≤ 63) ∧
  (∀ c d : Byte, (q5 c = q5 d ↔ c.toNat / 8 = d.toNat / 8) ∧ (q6 c = q6 d ↔ c.toNat / 4 = d.toNat / 4)) ∧
  q5 0xFF = 31 ∧ q5 0x07 = 0 ∧ q5 0x08 = 1 ∧ q6 0xFF = 63 ∧ q6 0x03 = 0 ∧ q6 0x04 = 1

/-- R114: `PACK565` is the source's formula on operands of 16 bits; the words the rule gives. -/
def Obligations.Pack565IsTheFormula : Prop :=
  (∀ r g b : Byte,
    pack565 r g b =
      ((r.setWidth 16 &&& 0x00F8#16) <<< 8) ||| ((g.setWidth 16 &&& 0x00FC#16) <<< 3) ||| (b.setWidth 16 >>> 3)) ∧
  pack565 0xFF 0x00 0x00 = 0xF800 ∧ pack565 0x00 0xFF 0x00 = 0x07E0 ∧ pack565 0x00 0x00 0xFF = 0x001F ∧
  pack565 0x00 0x00 0x00 = 0x0000 ∧ pack565 0xFF 0xFF 0xFF = 0xFFFF ∧ pack565 0x07 0x03 0x07 = 0x0000 ∧
  pack565 0x08 0x04 0x08 = 0x0821

/-- The equivalent forms and the properties of `PACK565` that R112, R113 and R114 mark as derived: the two spellings of the red
and the green term, the three other forms, onto, monotone in each channel, and blind to the low bits. -/
def Obligations.Pack565FormsAgree : Prop :=
  (∀ c : Byte,
    ((c.setWidth 16 &&& 0x00F8#16) <<< 8 : Half) = (q5 c).setWidth 16 <<< 11 ∧
    ((c.setWidth 16 &&& 0x00FC#16) <<< 3 : Half) = (q6 c).setWidth 16 <<< 5 ∧ c &&& 0xFC#8 = (c >>> 2) <<< 2) ∧
  (∀ r g b : Byte,
    pack565 r g b = ((q5 r).setWidth 16 <<< 11) ||| ((q6 g).setWidth 16 <<< 5) ||| (q5 b).setWidth 16 ∧
    (pack565 r g b).toNat = (q5 r).toNat * 2048 + (q6 g).toNat * 32 + (q5 b).toNat ∧
    pack565 r g b = r.extractLsb' 3 5 ++ g.extractLsb' 2 6 ++ b.extractLsb' 3 5 ∧
    pack565 r g b = pack565 (r &&& 0xF8#8) (g &&& 0xFC#8) (b &&& 0xF8#8)) ∧
  (∀ w : Half, ∃ r g b, pack565 r g b = w) ∧
  (∀ r g b r' g' b' : Byte, r.toNat ≤ r'.toNat → g.toNat ≤ g'.toNat → b.toNat ≤ b'.toNat →
    (pack565 r g b).toNat ≤ (pack565 r' g' b').toNat)

/-- The three lanes of the word, each a function of its own channel alone, and the two serialised bytes in terms of the source
pixel, whose sum with weights 1 and 256 is the word: R117, R72, R73 and R44 mark these as derived from R114. -/
def Obligations.LanesOfTheWordAreIndependent : Prop :=
  ∀ r g b : Byte,
    (pack565 r g b).extractLsb' 11 5 = r.extractLsb' 3 5 ∧ (pack565 r g b).extractLsb' 5 6 = g.extractLsb' 2 6 ∧
    (pack565 r g b).extractLsb' 0 5 = b.extractLsb' 3 5 ∧
    ∃ lo hi : Byte, le16 (pack565 r g b) = [lo, hi] ∧ lo = g.extractLsb' 2 3 ++ b.extractLsb' 3 5 ∧
      hi = r.extractLsb' 3 5 ++ g.extractLsb' 5 3 ∧ lo.toNat + 256 * hi.toNat = (pack565 r g b).toNat

/-- R115: the serialised word is `[w[7:0], w[15:8]]`, low byte first; the pairs the rule gives. -/
def Obligations.SerialisationIsLowByteFirst : Prop :=
  (∀ w : Half, ∃ lo hi : Byte, le16 w = [lo, hi] ∧ lo.toNat = w.toNat % 256 ∧ hi.toNat = w.toNat / 256) ∧
  le16 0xF800 = [0x00, 0xF8] ∧ le16 0x07E0 = [0xE0, 0x07] ∧ le16 0x001F = [0x1F, 0x00] ∧ le16 0x0000 = [0x00, 0x00]

/-- `InRange` is the unsigned test `1 <= v <= 256` of R111, and, the inference that R111 marks as derived, it gives the same
verdict under the signed reading. -/
def Obligations.RangeTestIsTheSameSignedAndUnsigned : Prop :=
  ∀ v : Word, (inRange v = true ↔ 1 ≤ v.toNat ∧ v.toNat ≤ 256) ∧ (inRange v = true ↔ 1 ≤ v.toInt ∧ v.toInt ≤ 256) ∧
    (v.toInt < 0 → 2 ^ 31 ≤ v.toNat)

/-- The offsets of R116, and, the inference that it marks as derived, that `(x, y) -> idx` is a bijection onto
`0 .. width * height - 1`. -/
def Obligations.PixelIndexIsABijection : Prop :=
  (∀ idx, srcOff idx = 3 * idx ∧ dstOff idx = 2 * idx) ∧
  (∀ width x y, dstOff (pixelIndex width x y) = 2 * (y * width + x) ∧ srcOff (pixelIndex width x y) = 3 * (y * width + x)) ∧
  (∀ width height x y, x < width → y < height → pixelIndex width x y < width * height) ∧
  (∀ width x y x' y', x < width → x' < width → pixelIndex width x y = pixelIndex width x' y' → x = x' ∧ y = y') ∧
  (∀ width height idx, idx < width * height → ∃ x y, x < width ∧ y < height ∧ pixelIndex width x y = idx)

/-- With legal dimensions no product, sum or increment the Engine forms can wrap around: R118, marked as derived. -/
def Obligations.ControlArithmeticFits : Prop :=
  ∀ b : Block, legalDims b →
    (1 ≤ b.pixels ∧ b.pixels ≤ 65536) ∧ (2 ≤ 2 * b.pixels ∧ 2 * b.pixels ≤ 131072) ∧
    (3 ≤ 3 * b.pixels ∧ 3 * b.pixels ≤ 196608) ∧
    (b.idx.toNat < b.pixels → 3 * b.idx.toNat + 2 ≤ 196607 ∧ 2 * b.idx.toNat + 1 ≤ 131071 ∧ b.idx.toNat + 1 ≤ 65536 ∧
      3 * b.idx.toNat + 2 < 2 ^ 18 ∧ 2 * b.idx.toNat + 1 < 2 ^ 18 ∧ b.idx.toNat + 1 < 2 ^ 17)

/-- Red, green and blue stand at ascending offsets of a source pixel: the order of R42, which the source does not state and the
spec decides (D8; log 7). -/
def Obligations.SourcePixelIsRedGreenBlue : Prop :=
  ∀ (src : Memory) (idx : Nat) (r g b : Byte), readPixel src idx = some (r, g, b) ↔
    Memory.read src (3 * idx) = some r ∧ Memory.read src (3 * idx + 1) = some g ∧ Memory.read src (3 * idx + 2) = some b

/-! ## Encodings -/

/-- R76 and R77: the codes of the phases and of the kinds, and that a Decoder's reason has its kind's code. -/
def Obligations.CodesOfPhasesAndKinds : Prop :=
  phaseCode .start = 0 ∧ phaseCode .validateDimensions = 1 ∧ phaseCode .decode = 2 ∧ phaseCode .checkDimensions = 3 ∧
  phaseCode .pack = 4 ∧ phaseCode .done = 5 ∧ phaseCode .failed = 6 ∧
  errCode .none = 0 ∧ errCode .invalidDimensions = 1 ∧ errCode .malformedHeader = 2 ∧ errCode .truncatedData = 3 ∧
  errCode .unsupportedFeature = 4 ∧ errCode .internalDecodeFailure = 5 ∧ errCode .dimensionMismatch = 6 ∧
  errCode .allocationFailure = 7 ∧ (∀ r, errCode (kindOfReason r) = reasonCode r) ∧
  (∀ p q, phaseCode p = phaseCode q → p = q) ∧ (∀ k l, errCode k = errCode l → k = l)

/-- R79: the assigned command words, and that every other word selects no command. -/
def Obligations.CommandWordsAreThreeOfThem : Prop :=
  decode (.arrival (.command 0x00000000#32)) = .ok .nop ∧ decode (.arrival (.command 0x00000001#32)) = .ok .process ∧
  decode (.arrival (.command 0x00000002#32)) = .ok .release ∧
  ∀ w, w ≠ 0x00000000#32 → w ≠ 0x00000001#32 → w ≠ 0x00000002#32 →
    decode (.arrival (.command w)) = .reject (.reservedCommand w)

/-- R82: the assigned response words, and that every other word 0 is reserved. -/
def Obligations.ResponseWordsAreSixOfThem : Prop :=
  ∀ w1 w2 buf,
    decode (.arrival (.response 0x00000010#32 w1 w2 buf)) = .ok (.decOk w1 w2 buf) ∧
    decode (.arrival (.response 0x00000211#32 w1 w2 buf)) = .ok (.decErr .malformedHeader) ∧
    decode (.arrival (.response 0x00000311#32 w1 w2 buf)) = .ok (.decErr .truncatedData) ∧
    decode (.arrival (.response 0x00000411#32 w1 w2 buf)) = .ok (.decErr .unsupportedFeature) ∧
    decode (.arrival (.response 0x00000511#32 w1 w2 buf)) = .ok (.decErr .internalDecodeFailure) ∧
    decode (.arrival (.response 0x00000012#32 w1 w2 buf)) = .ok .decNomem ∧
    ∀ w0, w0 ≠ 0x00000010#32 → w0 ≠ 0x00000211#32 → w0 ≠ 0x00000311#32 → w0 ≠ 0x00000411#32 → w0 ≠ 0x00000511#32 →
      w0 ≠ 0x00000012#32 → decode (.arrival (.response w0 w1 w2 buf)) = .reject (.reservedResponse w0)

/-- R84: which Engine operation the state selects, and that in any other state there is none. -/
def Obligations.EngineSelectionByState : Prop :=
  ∀ b ok,
    (b.phase = .validateDimensions → decode (.select (selectorOf b) ok) = .ok .vdim) ∧
    (b.phase = .checkDimensions → decode (.select (selectorOf b) ok) = .ok .cdim) ∧
    (b.phase = .pack → b.outlen = 0 → decode (.select (selectorOf b) ok) = .ok (.alloc ok)) ∧
    (b.phase = .pack → b.outlen ≠ 0 → b.idx.toNat < b.pixels → decode (.select (selectorOf b) ok) = .ok .packpx) ∧
    (b.phase = .pack → b.outlen ≠ 0 → b.idx.toNat = b.pixels → decode (.select (selectorOf b) ok) = .ok .finish) ∧
    (¬enginePhase b.phase → decode (.select (selectorOf b) ok) = .reject .noOperation) ∧
    (b.phase = .pack → b.outlen ≠ 0 → b.pixels < b.idx.toNat →
      decode (.select (selectorOf b) ok) = .reject .noOperation)

/-- Decode and encode agree: a well-formed operation, with every operand at every value, is what its own words decode to;
and an arrival that decodes is, up to the words that are not read, the encoding of what it decodes to. -/
def Obligations.DecodeAndEncodeAgree : Prop :=
  (∀ i : Instr, i.wellFormed = true → decode (encode i) = .ok i) ∧
  (∀ (a : Arrival) (i : Instr), decode (.arrival a) = .ok i →
    encode i = .arrival a ∨
    ∃ w0 w1 w2 buf, a = .response w0 w1 w2 buf ∧ w0 ≠ 0x00000010#32 ∧ encode i = .arrival (.response w0 0 0 []))

/-- A few words written out from the spec's tables decode to the operations they stand for (sanity). The numbering of the
table's words and the doors it gives them to are the model's (log 17). -/
def Obligations.WrittenWordsDecode : Prop :=
  decodeTableWord 32 0x00000001 = some .process ∧ decodeTableWord 32 0x00000002 = some .release ∧
  decodeTableWord 32 0x00000311 = some (.decErr .truncatedData) ∧ decodeTableWord 32 0x00000111 = none ∧
  decodeTableWord 32 0x00000012 = some .decNomem ∧ decodeTableWord 32 0x00000101 = none ∧
  decodeTableWord 96 0x000000020000000300000010 = some (.decOk 3 2 [])

/-! ## The step -/

/-- What an agent presents at a door is decoded and performed on the state without that turn (a step's shape is the
model's, log 1 and log 2). -/
def Obligations.StepPerformsTheArrival : Prop :=
  ∀ s a rest, s.env.agenda = .arrival a :: rest →
    (∀ i, decode (.arrival a) = .ok i → step s = exec i { s with env := { s.env with agenda := rest } }) ∧
    (∀ w, decode (.arrival a) = .reject (.reservedCommand w) →
      step s = .next { s with env := { s.env with agenda := rest } }) ∧
    (∀ w, decode (.arrival a) = .reject (.reservedResponse w) →
      step s = .next { s with env := { s.env with agenda := rest } }) ∧
    (∀ off, decode (.arrival a) = .reject (.misaligned off) → step s = .refused (.misalignedRegisterAccess off))

/-- The Engine's turn, given to it by the agenda or because the agenda is empty: the operation the state selects is
performed, `ALLOC` with the Allocator's next draw, which is taken from `draws`; with none selected the block waits
(a step's shape is the model's, log 2, log 3, log 18). -/
def Obligations.StepPerformsTheEnginesOperation : Prop :=
  ∀ s u, (s.env.agenda = [] ∧ u = s) ∨
      (∃ rest, s.env.agenda = .engine :: rest ∧ u = { s with env := { s.env with agenda := rest } }) →
    (∀ i, decode (.select (selectorOf s.block) false) = .ok i → (∀ ok, i ≠ .alloc ok) → step s = exec i u) ∧
    (∀ d ds, s.block.phase = .pack → s.block.outlen = 0 → s.env.draws = d :: ds →
      step s = exec (.alloc d) { u with env := { u.env with draws := ds } }) ∧
    (s.block.phase = .pack → s.block.outlen = 0 → s.env.draws = [] →
      step s = exec (.alloc (Config.allocDraw s.env.allocCount)) u) ∧
    (∀ r, decode (.select (selectorOf s.block) false) = .reject r → step s = .next u)

/-! ## Rules of the whole machine -/

/-- R87 and R88: reserved words and operations that are not enabled are dropped: no state of the block changes, no error is
raised. -/
def Obligations.ReservedAndUntimelyInputsAreDropped : Prop :=
  (∀ s w rest, s.env.agenda = .arrival (.command w) :: rest → w ≠ 0 → w ≠ 1 → w ≠ 2 →
    step s = .next { s with env := { s.env with agenda := rest } }) ∧
  (∀ s w0 w1 w2 buf rest, s.env.agenda = .arrival (.response w0 w1 w2 buf) :: rest → w0 ≠ 0x10 → w0 ≠ 0x211 →
    w0 ≠ 0x311 → w0 ≠ 0x411 → w0 ≠ 0x511 → w0 ≠ 0x12 → step s = .next { s with env := { s.env with agenda := rest } }) ∧
  (∀ s, s.block.phase ≠ .start → exec .process s = .next s) ∧
  (∀ s, s.block.phase ≠ .done → s.block.phase ≠ .failed → exec .release s = .next s) ∧
  (∀ s, s.block.phase ≠ .decode →
    (∀ aw ah buf, buf.length = 3 * aw.toNat * ah.toNat → exec (.decOk aw ah buf) s = .next s) ∧
    (∀ reason, exec (.decErr reason) s = .next s) ∧ exec .decNomem s = .next s) ∧
  (∀ s v, s.block.phase ≠ .start → exec (.regwr 0x0C v) s = .next s ∧ exec (.regwr 0x10 v) s = .next s) ∧
  (∀ s v off, off % 4 = 0 → off ≠ 0x00 → off ≠ 0x0C → off ≠ 0x10 → exec (.regwr off v) s = .next s)

/-- U12, R141, R142, R149: while the Engine has an enabled step or the Decoder owes an answer, no Host operation changes
the block, so the interleaving cannot change the outcome of a call. -/
def Obligations.HostCannotDisturbARunningCall : Prop :=
  ∀ i s t, busyBit s.block.phase = true → hostOp i → exec i s = .next t → t.block = s.block

/-- R23: who may write what, in which phase. `RELEASE` and reset restore every item. The premise is R27's invariant. -/
def Obligations.OnlyTheAllowedAgentWrites : Prop :=
  ∀ i s t, MachineInv s → exec i s = .next t →
    ((i = .reset ∨ ((s.block.phase = .done ∨ s.block.phase = .failed) ∧ (i = .release ∨ i = .regwr 0x00 2))) ∧
      t.block = State.reset.block) ∨
    ((t.block.ew ≠ s.block.ew ∨ t.block.eh ≠ s.block.eh → s.block.phase = .start ∧ hostOp i) ∧
     (t.block.aw ≠ s.block.aw ∨ t.block.ah ≠ s.block.ah →
       s.block.phase = .decode ∧ ∃ aw ah buf, i = .decOk aw ah buf) ∧
     (t.block.src ≠ s.block.src →
       (s.block.phase = .decode ∧ ∃ aw ah buf, i = .decOk aw ah buf) ∨ (s.block.phase = .checkDimensions ∧ i = .cdim) ∨
       (s.block.phase = .pack ∧ engineOp i)) ∧
     (t.block.dst ≠ s.block.dst ∨ t.block.outlen ≠ s.block.outlen ∨ t.block.idx ≠ s.block.idx →
       s.block.phase = .pack ∧ engineOp i) ∧
     (t.block.err ≠ s.block.err →
       (enginePhase s.block.phase ∧ engineOp i) ∨
       (s.block.phase = .decode ∧ ((∃ reason, i = .decErr reason) ∨ i = .decNomem))) ∧
     (t.block.phase ≠ s.block.phase →
       (s.block.phase = .start ∧ (i = .process ∨ i = .regwr 0x00 1)) ∨ (enginePhase s.block.phase ∧ engineOp i) ∨
       (s.block.phase = .decode ∧
         ((∃ aw ah buf, i = .decOk aw ah buf) ∨ (∃ reason, i = .decErr reason) ∨ i = .decNomem))))

/-- R140: all transfer of control is the movement of `PHASE` along the graph, each edge by its operation; inside `Pack`
`ALLOC` comes first and starts the count, each `PACKPX` raises `IDX` by one below the bound, and `FINISH` comes at it. -/
def Obligations.PhaseMovesAlongTheGraph : Prop :=
  (∀ i s t, exec i s = .next t → t.block.phase = s.block.phase ∨ PhaseEdge i s.block.phase t.block.phase) ∧
  (∀ i s t, s.block.phase = .pack → exec i s = .next t → t.block.phase = .pack →
    t.block = s.block ∨
    ((∃ ok, i = .alloc ok) ∧ s.block.outlen = 0 ∧ t.block.outlen.toNat = 2 * s.block.pixels ∧ t.block.idx = 0) ∨
    (i = .packpx ∧ s.block.outlen ≠ 0 ∧ s.block.idx.toNat < s.block.pixels ∧ t.block.outlen = s.block.outlen ∧
      t.block.idx.toNat = s.block.idx.toNat + 1)) ∧
  (∀ s t, exec .finish s = .next t → s.block.outlen ≠ 0 ∧ s.block.idx.toNat = s.block.pixels)

/-- `Decode` is entered exactly when `VDIM` passes, and `DECREQ` says so; only a Decoder response or reset leaves the phase; a
response in any other phase, so any after the first, is dropped (R100; a `DEC.OK` with its buffer of `3 * aw * ah` bytes, log 10
for others). There the block waits without bound: that a step with nothing presented answers the same state is the model's
choice of schedule and of waiting (log 2, log 18). -/
def Obligations.DecodeIsLeftOnlyByAResponseOrReset : Prop :=
  (∀ p, decreqBit p = true ↔ p = .decode) ∧
  (∀ i s t, s.block.phase ≠ .decode → exec i s = .next t → t.block.phase = .decode → i = .vdim ∧ legalDims s.block) ∧
  (∀ s, s.block.phase = .decode → s.env.agenda = [] → step s = .next s) ∧
  (∀ i s t, s.block.phase = .decode → exec i s = .next t → t.block ≠ s.block →
    (∃ aw ah buf, i = .decOk aw ah buf) ∨ (∃ reason, i = .decErr reason) ∨ i = .decNomem ∨ i = .reset) ∧
  (∀ s, s.block.phase ≠ .decode →
    (∀ aw ah buf, buf.length = 3 * aw.toNat * ah.toNat → exec (.decOk aw ah buf) s = .next s) ∧
    (∀ reason, exec (.decErr reason) s = .next s) ∧ exec .decNomem s = .next s) ∧
  (∀ s aw ah buf t, exec (.decOk aw ah buf) s = .next t → t.block.phase ≠ .decode)

/-- Until `VDIM` has passed, the Decoder is not invoked and no buffer exists (R145); with declared dimensions outside 1 to 256,
those right after reset among them, `PROCESS` and the Engine's next step end in `InvalidDimensions`, and on this path all of
that holds throughout, the inference that R145 and R28 mark as derived. The two steps are the model's turns: what the Host
presents (log 1), then the Engine's turn at an empty agenda (log 2). -/
def Obligations.InvalidDimensionsBeforeAnyWork : Prop :=
  (∀ s, MachineInv s → s.block.phase = .start ∨ s.block.phase = .validateDimensions →
    decreqBit s.block.phase = false ∧ Untouched s.block) ∧
  ¬legalDims State.reset.block ∧
  ∀ s, MachineInv s → s.block.phase = .start → s.env.agenda = [.arrival (.command 1)] → ¬legalDims s.block →
    ∃ t u, step s = .next t ∧ step t = .next u ∧ u.block.phase = .failed ∧ u.block.err = .invalidDimensions ∧
      ∀ v, v = s ∨ v = t ∨ v = u → decreqBit v.block.phase = false ∧ v.block.aw = 0 ∧ v.block.ah = 0 ∧ v.block.src = [] ∧
        v.block.dst = [] ∧ v.block.outlen = 0

/-- Both address spaces keep their canonical form under every step, whatever else holds. -/
def Obligations.StepKeepsTheCanonicalForm : Prop :=
  ∀ s t, Memory.wf s.block.src → Memory.wf s.block.dst → step s = .next t →
    Memory.wf t.block.src ∧ Memory.wf t.block.dst

/-- The invariant holds right after reset, before every stream of inputs. -/
def Obligations.InvariantHoldsAtReset : Prop :=
  MachineInv State.reset ∧ ∀ agenda draws, MachineInv (startedWith agenda draws)

/-- Every step keeps the invariant, from every state that has it, reached or not. -/
def Obligations.EveryStepKeepsTheInvariant : Prop :=
  ∀ s t, MachineInv s → step s = .next t → MachineInv t

/-- R27, which the spec marks as derived: INV1 to INV12 hold in every state reachable from reset, under every stream of inputs. INV7 speaks of the delivered
buffer, which the model keeps in `env.delivered` (log 14). -/
def Obligations.InvariantsHoldInEveryReachedState : Prop :=
  ∀ s, Reached s → Rule27 s.block s.env.delivered

/-- Every access of the Engine is inside its space, by the inequalities that R50 marks as derived from R27: from a state with
the invariant no step faults (the faults are the model's, log 12), and a step refuses only an input that the spec says a
model refuses. -/
def Obligations.NoStepFaultsUnderTheInvariant : Prop :=
  ∀ s, MachineInv s → SafeStep s ∧
    (s.block.phase = .pack → s.block.outlen ≠ 0 → s.block.idx.toNat < s.block.pixels →
      3 * s.block.idx.toNat + 2 < 3 * s.block.pixels ∧ 3 * s.block.pixels = s.block.src.length ∧
      2 * s.block.idx.toNat + 1 < 2 * s.block.pixels ∧ 2 * s.block.pixels = s.block.dst.length) ∧
    ∀ r, step s = .refused r →
      (∃ off, r = .misalignedRegisterAccess off ∧ off % 4 ≠ 0) ∨
      (∃ off, r = .dstReadNotAdmitted off ∧ ¬(s.block.phase = .done ∧ off < s.block.outlen.toNat)) ∨
      (r = .decoderBufferLength ∧ s.block.phase = .decode)

/-- From `CheckDimensions` with equal dimensions and a granted buffer, `EW * EH + 3` steps of the Engine end in `Done`, and for
every pixel the two bytes of `DST` are those of `PACK565` of the delivered buffer: R124, which marks the count of steps as
derived. That the Engine has every turn is the model's schedule (log 2), and the draw is the first of the list (log 3). -/
def Obligations.PackerProducesThePackedImage : Prop :=
  ∀ s ds, MachineInv s → s.block.phase = .checkDimensions → s.block.aw = s.block.ew → s.block.ah = s.block.eh →
    s.env.agenda = [] → s.env.draws = true :: ds →
    ∃ t, run (s.block.ew.toNat * s.block.eh.toNat + 3) s = .next t ∧ t.block.phase = .done ∧
      t.block.outlen.toNat = 2 * (s.block.ew.toNat * s.block.eh.toNat) ∧
      t.block.dst.length = 2 * (s.block.ew.toNat * s.block.eh.toNat) ∧
      ∀ x y, x < s.block.ew.toNat → y < s.block.eh.toNat →
        ∃ r g b, s.env.delivered[3 * (y * s.block.ew.toNat + x)]? = some r ∧
          s.env.delivered[3 * (y * s.block.ew.toNat + x) + 1]? = some g ∧
          s.env.delivered[3 * (y * s.block.ew.toNat + x) + 2]? = some b ∧
          Memory.read t.block.dst (2 * (y * s.block.ew.toNat + x)) = some ((pack565 r g b).extractLsb' 0 8) ∧
          Memory.read t.block.dst (2 * (y * s.block.ew.toNat + x) + 1) = some ((pack565 r g b).extractLsb' 8 8)

/-- R125: the Packer is pure: two machines with the same dimensions and the same bytes of `SRC`, whatever else differs in
them, the unspecified bytes of the fresh buffer among it, produce the same `DST`, byte for byte. -/
def Obligations.PackerIsPure : Prop :=
  ∀ s₁ s₂ ds₁ ds₂ t₁ t₂, MachineInv s₁ → MachineInv s₂ → s₁.block.phase = .checkDimensions → s₂.block.phase = .checkDimensions →
    s₁.block.ew = s₂.block.ew → s₁.block.eh = s₂.block.eh → s₁.block.aw = s₂.block.aw → s₁.block.ah = s₂.block.ah →
    s₁.block.aw = s₁.block.ew → s₁.block.ah = s₁.block.eh → s₁.block.src = s₂.block.src →
    s₁.env.agenda = [] → s₂.env.agenda = [] → s₁.env.draws = true :: ds₁ → s₂.env.draws = true :: ds₂ →
    run (s₁.block.ew.toNat * s₁.block.eh.toNat + 3) s₁ = .next t₁ →
    run (s₂.block.ew.toNat * s₂.block.eh.toNat + 3) s₂ = .next t₂ →
    t₁.block.dst = t₂.block.dst

/-- The Engine is never stuck in its own phases, and from `CheckDimensions`, whatever the dimensions and the Allocator's draws,
it alone reaches `Done` or `Failed` in at most `EW * EH + 3` steps: R152, by R27's invariant (the schedule is the model's,
log 2). -/
def Obligations.CallEndsWithinTheStepBound : Prop :=
  (∀ b buf ok, Rule27 b buf → enginePhase b.phase →
    ∃ i, engineOp i ∧ decode (.select (selectorOf b) ok) = .ok i) ∧
  ∀ s, MachineInv s → s.block.phase = .checkDimensions → s.env.agenda = [] →
    ∃ k t, k ≤ s.block.ew.toNat * s.block.eh.toNat + 3 ∧ run k s = .next t ∧
      (t.block.phase = .done ∨ t.block.phase = .failed)

/-- `decode_image` as a sequence of operations from reset, by R151 and the count that R200 marks as derived: two register
writes and the `EW * EH + 6` state-changing operations of a successful call end in `Done` with the packed image of the
delivered buffer. -/
def Obligations.WholeCallFromReset : Prop :=
  ∀ (w h : Word) (buf : List Byte) (ds : List Bool), legalDim w → legalDim h → buf.length = 3 * w.toNat * h.toNat →
    ∃ t, run (2 + (w.toNat * h.toNat + 6))
        (startedWith (decodeImageTurns w h (.response 0x00000010#32 w h buf) (w.toNat * h.toNat)) (true :: ds)) = .next t ∧
      t.block.phase = .done ∧ t.block.ew = w ∧ t.block.eh = h ∧ t.block.err = .none ∧ t.block.src = [] ∧
      t.block.outlen.toNat = 2 * (w.toNat * h.toNat) ∧ t.env.agenda = [] ∧
      ∀ i, i < w.toNat * h.toNat → PixelPacked (Memory.ofBytes buf) t.block.dst i

/-- `decode_image` as a whole, by R151 and R91: from every state whose block is the reset block and whose agenda is empty, it
returns the packed image of the delivered buffer, or `DimensionMismatch` with the four dimension registers, or the Decoder's
error, `AllocationFailure` or `InvalidDimensions` with none, and leaves the reset block. On the last path the Decoder's word is
dropped, whatever it is (R87, R88; log 10 for a wrong length). The turns and the Host's polls are the model's
schedule (log 1, log 2, log 24), and the draw is the first of the list (log 3). -/
def Obligations.DecodeImageReturnsItsResult : Prop :=
  ∀ (s : State) (w h : Word) (gap : Nat) (gaps : List Nat), s.block = State.reset.block → s.env.agenda = [] →
    (∀ buf ds, legalDim w → legalDim h → buf.length = 3 * w.toNat * h.toNat → s.env.draws = true :: ds →
      ∃ t bytes, decodeImage w h (.response 0x00000010#32 w h buf) (w.toNat * h.toNat) (gap :: gaps) s =
          .next (t, .packed bytes) ∧
        t.block = State.reset.block ∧ bytes.length = 2 * (w.toNat * h.toNat) ∧
        ∀ i, i < w.toNat * h.toNat → ∃ r g b,
          buf[3 * i]? = some r ∧ buf[3 * i + 1]? = some g ∧ buf[3 * i + 2]? = some b ∧
          bytes[2 * i]? = some ((pack565 r g b).extractLsb' 0 8) ∧
          bytes[2 * i + 1]? = some ((pack565 r g b).extractLsb' 8 8)) ∧
    (∀ aw ah buf pixels, legalDim w → legalDim h → buf.length = 3 * aw.toNat * ah.toNat → aw ≠ w ∨ ah ≠ h →
      ∃ t, decodeImage w h (.response 0x00000010#32 aw ah buf) pixels (gap :: gaps) s =
          .next (t, .error 6 [w, h, aw, ah]) ∧ t.block = State.reset.block) ∧
    (∀ reason pixels, legalDim w → legalDim h →
      ∃ t, decodeImage w h (.response (0x00000011#32 ||| ((reasonCode reason).setWidth 32 <<< 8)) 0 0 []) pixels (gap :: gaps) s =
          .next (t, .error ((reasonCode reason).setWidth 32) []) ∧ t.block = State.reset.block) ∧
    (∀ pixels, legalDim w → legalDim h →
      ∃ t, decodeImage w h (.response 0x00000012#32 0 0 []) pixels (gap :: gaps) s = .next (t, .error 7 []) ∧
        t.block = State.reset.block) ∧
    (∀ buf ds pixels, legalDim w → legalDim h → buf.length = 3 * w.toNat * h.toNat → s.env.draws = false :: ds →
      Config.allocCanFail = false ∨
      ∃ t, decodeImage w h (.response 0x00000010#32 w h buf) pixels (gap :: gaps) s = .next (t, .error 7 []) ∧
        t.block = State.reset.block) ∧
    (∀ w0 w1 w2 buf pixels, ¬(legalDim w ∧ legalDim h) →
      ∃ t, decodeImage w h (.response w0 w1 w2 buf) pixels (gap :: gaps) s = .next (t, .error 1 []) ∧
        t.block = State.reset.block)
end

