-- ==== Sys2Proof/Laws/State.lean ====
section
/-! SUPPORT. One lemma per field per update of the state. -/

namespace Sys2Proof.Machine

section
variable (s : State) (b : Block) (e : Env) (turns : List Turn) (d : BusData) (k : ErrKind)

@[simp] theorem State.withBlock_block : (s.withBlock b).block = b := rfl
@[simp] theorem State.withBlock_env : (s.withBlock b).env = s.env := rfl
@[simp] theorem State.withEnv_block : (s.withEnv e).block = s.block := rfl
@[simp] theorem State.withEnv_env : (s.withEnv e).env = e := rfl
@[simp] theorem State.withAgenda_block : (s.withAgenda turns).block = s.block := rfl
@[simp] theorem State.withAgenda_env : (s.withAgenda turns).env = { s.env with agenda := turns } := rfl
@[simp] theorem State.returning_block : (s.returning d).block = s.block := rfl
@[simp] theorem State.returning_env : (s.returning d).env = { s.env with busData := some d } := rfl
@[simp] theorem State.countAlloc_block : s.countAlloc.block = s.block := rfl
@[simp] theorem State.countAlloc_env : s.countAlloc.env = { s.env with allocCount := s.env.allocCount + 1 } := rfl

@[simp] theorem Block.raise_phase : (b.raise k).phase = .failed := rfl
@[simp] theorem Block.raise_err : (b.raise k).err = k := rfl
@[simp] theorem Block.raise_src : (b.raise k).src = [] := rfl
@[simp] theorem Block.raise_dst : (b.raise k).dst = [] := rfl
@[simp] theorem Block.raise_outlen : (b.raise k).outlen = 0 := rfl
@[simp] theorem Block.raise_idx : (b.raise k).idx = 0 := rfl
@[simp] theorem Block.raise_ew : (b.raise k).ew = b.ew := rfl
@[simp] theorem Block.raise_eh : (b.raise k).eh = b.eh := rfl
@[simp] theorem Block.raise_aw : (b.raise k).aw = b.aw := rfl
@[simp] theorem Block.raise_ah : (b.raise k).ah = b.ah := rfl

/-- What `RELEASE` and reset leave is the reset state, whatever came before (R28, R142, R190). -/
@[simp] theorem clearBlock_eq_reset : clearBlock b = Block.reset := rfl

end

end Sys2Proof.Machine
end

