-- ==== Sys2Proof/Laws/Exec.lean ====
section
/-! SUPPORT. One inversion lemma per operation and per part of the step: everything it can do when it answers a next state.
Later proofs cite these and do not unfold the meanings. -/

namespace Sys2Proof.Machine

variable {s t : State}

/-! ## Shared operations -/

theorem drop_next : drop s = .next t ↔ t = s := by
  simp [drop, eq_comm]

theorem raiseError_next {k : ErrKind} : raiseError k s = .next t ↔ t = s.withBlock (s.block.raise k) := by
  simp [raiseError, eq_comm]

theorem fit_eq_some {w v : Nat} {x : BitVec w} : fit w v = some x ↔ v < 2 ^ w ∧ x.toNat = v := by
  unfold fit
  split
  · rename_i h
    simp only [Option.some.injEq, h, true_and]
    constructor
    · rintro rfl
      simpa using Nat.mod_eq_of_lt h
    · rintro rfl
      simp
  · rename_i h
    simp [h]

/-- The range test is the comparison with 1 and 256 (R111). -/
theorem inRange_iff {v : Word} : inRange v = true ↔ 1 ≤ v.toNat ∧ v.toNat ≤ 256 := by
  unfold inRange
  rw [Bool.and_eq_true, decide_eq_true_iff, decide_eq_true_iff]
  rfl

/-- A granted `ALLOC` is one whose draw is 1, or any where allocation cannot fail (R121). -/
theorem granted_eq_false {allocOk : Bool} : granted allocOk = false ↔ allocOk = false ∧ Config.allocCanFail = true := by
  simp [granted]

/-! ## Host commands -/

theorem execNop_next : execNop s = .next t ↔ t = s := drop_next

theorem execProcess_next : execProcess s = .next t ↔
    (s.block.phase = .start ∧ t = s.withBlock { s.block with phase := .validateDimensions }) ∨
    (s.block.phase ≠ .start ∧ t = s) := by
  unfold execProcess
  split <;> simp_all [drop, eq_comm]

theorem execRelease_next : execRelease s = .next t ↔
    ((s.block.phase = .done ∨ s.block.phase = .failed) ∧ t = s.withBlock Block.reset) ∨
    (s.block.phase ≠ .done ∧ s.block.phase ≠ .failed ∧ t = s) := by
  unfold execRelease
  split
  · rename_i h
    simp only [h, clearBlock_eq_reset, Host.Outcome.next.injEq, true_and]
    rcases h with h | h <;> simp [h, eq_comm]
  · rename_i h
    rw [not_or] at h
    simp [h.1, h.2, drop_next]

/-- Issuing a command word is `NOP`, `PROCESS`, `RELEASE` or a drop. -/
theorem issueCommand_next {v : Word} : issueCommand v s = .next t ↔
    (v = 1 ∧ execProcess s = .next t) ∨ (v = 2 ∧ execRelease s = .next t) ∨ (v ≠ 1 ∧ v ≠ 2 ∧ t = s) := by
  unfold issueCommand decodeCommand
  by_cases h0 : v = 0#32
  · subst h0
    simp [execNop_next]
  by_cases h1 : v = 1#32
  · subst h1
    simp
  by_cases h2 : v = 2#32
  · subst h2
    simp
  · rw [if_neg h0, if_neg h1, if_neg h2]
    simp [h1, h2, drop_next]

/-! ## Host accesses -/

theorem execRegrd_next {off : Nat} : execRegrd off s = .next t ↔
    off % 4 = 0 ∧ t = s.returning (.word (regRead s.block off)) := by
  unfold execRegrd
  split <;> simp_all [eq_comm]

theorem execRegwr_next {off : Nat} {v : Word} : execRegwr off v s = .next t ↔
    (off = 0 ∧ issueCommand v s = .next t) ∨
    (off = 0x0C ∧ s.block.phase = .start ∧ t = s.withBlock { s.block with ew := v }) ∨
    (off = 0x10 ∧ s.block.phase = .start ∧ t = s.withBlock { s.block with eh := v }) ∨
    (off % 4 = 0 ∧ off ≠ 0 ∧ ¬(off = 0x0C ∧ s.block.phase = .start) ∧ ¬(off = 0x10 ∧ s.block.phase = .start) ∧
      t = s) := by
  unfold execRegwr
  by_cases h4 : off % 4 = 0
  · rw [if_pos h4]
    by_cases h0 : off = 0
    · simp [h0]
    by_cases h1 : off = 0x0C
    · by_cases hp : s.block.phase = .start <;> simp [h1, hp, drop, eq_comm]
    by_cases h2 : off = 0x10
    · by_cases hp : s.block.phase = .start <;> simp [h2, hp, drop, eq_comm]
    · simp [h0, h1, h2, h4, drop_next]
  · rw [if_neg h4]
    have h0 : off ≠ 0 := fun e => h4 (by omega)
    have h1 : off ≠ 0x0C := fun e => h4 (by omega)
    have h2 : off ≠ 0x10 := fun e => h4 (by omega)
    simp [h0, h1, h2, h4]

theorem execDstrd_next {off : Nat} : execDstrd off s = .next t ↔
    s.block.phase = .done ∧ off < s.block.outlen.toNat ∧
      ∃ b, Memory.read s.block.dst off = some b ∧ t = s.returning (.byte b) := by
  unfold execDstrd
  split
  · rename_i h
    cases hr : Memory.read s.block.dst off <;> simp [h, eq_comm]
  · rename_i h
    simp only [reduceCtorEq, false_iff]
    rintro ⟨h1, h2, -⟩
    exact h ⟨h1, h2⟩

/-! ## Decoder responses -/

theorem execDecOk_next {aw ah : Word} {buf : List Byte} : execDecOk aw ah buf s = .next t ↔
    (s.block.phase = .decode ∧ buf.length = 3 * aw.toNat * ah.toNat ∧
      t = (s.withBlock { s.block with aw := aw, ah := ah, src := Memory.ofBytes buf, phase := .checkDimensions }).withEnv
        { s.env with delivered := buf }) ∨
    (s.block.phase ≠ .decode ∧ t = s) := by
  unfold execDecOk
  split
  · rename_i h
    by_cases hl : buf.length = 3 * aw.toNat * ah.toNat
    · rw [if_pos hl]
      constructor
      · intro e
        exact .inl ⟨h, hl, (Host.Outcome.next.inj e).symm⟩
      · rintro (⟨-, -, rfl⟩ | ⟨hn, -⟩)
        · rfl
        · exact absurd h hn
    · rw [if_neg hl]
      constructor
      · intro e
        cases e
      · rintro (⟨-, hl', -⟩ | ⟨hn, -⟩)
        · exact absurd hl' hl
        · exact absurd h hn
  · rename_i h
    simp [h, drop_next]

theorem execDecErr_next {reason : DecodeReason} : execDecErr reason s = .next t ↔
    (s.block.phase = .decode ∧ t = s.withBlock (s.block.raise (kindOfReason reason))) ∨
    (s.block.phase ≠ .decode ∧ t = s) := by
  unfold execDecErr
  split <;> simp_all [drop_next, raiseError_next]

theorem execDecNomem_next : execDecNomem s = .next t ↔
    (s.block.phase = .decode ∧ t = s.withBlock (s.block.raise .allocationFailure)) ∨
    (s.block.phase ≠ .decode ∧ t = s) := by
  unfold execDecNomem
  split <;> simp_all [drop_next, raiseError_next]

/-! ## The Engine's operations -/

theorem execVdim_next : execVdim s = .next t ↔
    s.block.phase = .validateDimensions ∧
      ((inRange s.block.ew = true ∧ inRange s.block.eh = true ∧ t = s.withBlock { s.block with phase := .decode }) ∨
       (¬(inRange s.block.ew = true ∧ inRange s.block.eh = true) ∧
          t = s.withBlock (s.block.raise .invalidDimensions))) := by
  unfold execVdim
  split
  · rename_i h
    by_cases hr : inRange s.block.ew = true ∧ inRange s.block.eh = true
    · rw [if_pos hr]
      simp [h, hr.1, hr.2, eq_comm]
    · rw [if_neg hr, raiseError_next]
      constructor
      · exact fun e => ⟨h, .inr ⟨hr, e⟩⟩
      · rintro ⟨-, ⟨h1, h2, -⟩ | ⟨-, e⟩⟩
        · exact absurd ⟨h1, h2⟩ hr
        · exact e
  · rename_i h
    simp [h]

theorem execCdim_next : execCdim s = .next t ↔
    s.block.phase = .checkDimensions ∧
      ((s.block.aw = s.block.ew ∧ s.block.ah = s.block.eh ∧ t = s.withBlock { s.block with phase := .pack }) ∨
       (¬(s.block.aw = s.block.ew ∧ s.block.ah = s.block.eh) ∧
          t = s.withBlock (s.block.raise .dimensionMismatch))) := by
  unfold execCdim
  split
  · rename_i h
    split
    · rename_i h2
      simp [h, h2.1, h2.2, eq_comm]
    · rename_i h2
      simp only [raiseError_next, h, h2, not_false_eq_true, true_and]
      constructor
      · exact Or.inr
      · rintro (⟨h3, h4, -⟩ | h3)
        · exact absurd ⟨h3, h4⟩ h2
        · exact h3
  · rename_i h
    simp [h]

theorem execAlloc_next {allocOk : Bool} : execAlloc allocOk s = .next t ↔
    s.block.phase = .pack ∧ s.block.outlen = 0 ∧
      ((granted allocOk = true ∧ ∃ len : BitVec 18, len.toNat = 2 * s.block.pixels ∧
          t = s.countAlloc.withBlock
            { s.block with
              outlen := len
              dst := Memory.fresh (2 * s.block.pixels) (Config.freshByte s.env.allocCount)
              idx := 0 }) ∨
       (granted allocOk = false ∧ t = s.countAlloc.withBlock (s.block.raise .allocationFailure))) := by
  unfold execAlloc
  split
  · rename_i h
    by_cases hg : granted allocOk = true
    · rw [if_pos hg]
      cases hf : fit 18 (Config.bppDst * s.block.pixels) with
      | some len =>
        have hl := (fit_eq_some.mp hf).2
        simp only [h.1, h.2, hg, true_and]
        constructor
        · intro e
          exact .inl ⟨len, hl, by simpa [Config.bppDst, eq_comm] using e⟩
        · rintro (⟨len', hl', rfl⟩ | ⟨he, -⟩)
          · have : len = len' := BitVec.eq_of_toNat_eq (hl.trans hl'.symm)
            rw [this]
            rfl
          · simp at he
      | none =>
        simp only [h.1, h.2, hg, true_and]
        constructor
        · intro e
          simp at e
        · rintro (⟨len', hl', rfl⟩ | ⟨he, -⟩)
          · have : fit 18 (Config.bppDst * s.block.pixels) = some len' := fit_eq_some.mpr ⟨hl' ▸ len'.isLt, hl'⟩
            simp [this] at hf
          · simp at he
    · rw [if_neg hg, raiseError_next]
      simp_all
  · rename_i h
    simp only [reduceCtorEq, false_iff]
    rintro ⟨h1, h2, -⟩
    exact h ⟨h1, h2⟩

theorem execPackpx_next : execPackpx s = .next t ↔
    s.block.phase = .pack ∧ s.block.outlen ≠ 0 ∧ s.block.idx.toNat < s.block.pixels ∧
      2 * s.block.idx.toNat + 2 ≤ s.block.dst.length ∧
      ∃ r g bl, readPixel s.block.src s.block.idx.toNat = some (r, g, bl) ∧
        ∃ idx : BitVec 17, idx.toNat = s.block.idx.toNat + 1 ∧
          t = s.withBlock
            { s.block with
              dst := Memory.store s.block.dst (2 * s.block.idx.toNat) (le16 (pack565 r g bl)), idx := idx } := by
  unfold execPackpx
  simp only []
  split
  · rename_i h
    obtain ⟨h1, h2, h3⟩ := h
    simp only [h1, h2, h3, ne_eq, not_false_eq_true, true_and]
    cases hp : readPixel s.block.src s.block.idx.toNat with
    | none => simp
    | some p =>
      obtain ⟨r, g, bl⟩ := p
      simp only [Memory.writeBytes, dstOff, Config.bppDst, show (le16 (pack565 r g bl)).length = 2 from rfl]
      by_cases hl : 2 * s.block.idx.toNat + 2 ≤ s.block.dst.length
      · simp only [hl, if_true, true_and]
        cases hf : fit 17 (s.block.idx.toNat + 1) with
        | some idx =>
          have hi := (fit_eq_some.mp hf).2
          constructor
          · intro e
            exact ⟨r, g, bl, rfl, idx, hi, by simpa [eq_comm] using e⟩
          · rintro ⟨r', g', bl', e, idx', hi', rfl⟩
            have : idx = idx' := BitVec.eq_of_toNat_eq (hi.trans hi'.symm)
            simp only [Option.some.injEq, Prod.mk.injEq] at e
            obtain ⟨rfl, rfl, rfl⟩ := e
            rw [this]
        | none =>
          constructor
          · intro e
            simp at e
          · rintro ⟨r', g', bl', -, idx', hi', -⟩
            have : fit 17 (s.block.idx.toNat + 1) = some idx' := fit_eq_some.mpr ⟨hi' ▸ idx'.isLt, hi'⟩
            simp [this] at hf
      · simp [hl]
  · rename_i h
    simp only [reduceCtorEq, false_iff]
    rintro ⟨h1, h2, h3, -⟩
    exact h ⟨h1, h2, h3⟩

theorem execFinish_next : execFinish s = .next t ↔
    s.block.phase = .pack ∧ s.block.outlen ≠ 0 ∧ s.block.idx.toNat = s.block.pixels ∧
      t = s.withBlock { s.block with src := [], phase := .done } := by
  unfold execFinish
  split
  · rename_i h
    simp only [h, ne_eq, not_false_eq_true, true_and, Host.Outcome.next.injEq]
    exact eq_comm
  · rename_i h
    simp only [reduceCtorEq, false_iff]
    rintro ⟨h1, h2, h3, -⟩
    exact h ⟨h1, h2, h3⟩

theorem execReset_next : execReset s = .next t ↔ t = s.withBlock Block.reset := by
  simp [execReset, eq_comm]

/-! ## The step -/

/-- Whatever the turn, taking it changes no more than the agenda and the draws. -/
theorem fetch_keeps (s : State) :
    (fetch s).2.block = s.block ∧ (fetch s).2.env.allocCount = s.env.allocCount ∧
      (fetch s).2.env.busData = s.env.busData ∧ (fetch s).2.env.delivered = s.env.delivered := by
  have hm : ∀ u : State, (engineMessage u).2.block = u.block ∧ (engineMessage u).2.env.allocCount = u.env.allocCount ∧
      (engineMessage u).2.env.busData = u.env.busData ∧ (engineMessage u).2.env.delivered = u.env.delivered := by
    intro u
    unfold engineMessage
    simp only []
    split <;> exact ⟨rfl, rfl, rfl, rfl⟩
  unfold fetch
  split
  · exact hm s
  · exact hm _
  · exact ⟨rfl, rfl, rfl, rfl⟩

/-- A message that selects no operation leaves the state as it is, if it is not refused. -/
theorem onReject_next {r : Reject} (h : onReject r s = .next t) : t = s := by
  cases r <;> simp_all [onReject, drop, eq_comm]

/-- Everything a step can do: it performs the decoded operation, or it only takes the turn. -/
theorem step_next (h : step s = .next t) :
    (∃ i, decode (fetch s).1 = .ok i ∧ exec i (fetch s).2 = .next t) ∨
    (∃ r, decode (fetch s).1 = .reject r ∧ t = (fetch s).2) := by
  unfold step at h
  split at h
  · rename_i i hi
    exact .inl ⟨i, hi, h⟩
  · rename_i r hr
    exact .inr ⟨r, hr, onReject_next h⟩

end Sys2Proof.Machine
end

