-- ==== Sys2Proof/Laws/Step.lean ====
section
/-! SUPPORT. What a turn of the agenda is, and which operation the Engine's selecting state selects. -/

namespace Sys2Proof.Machine

/-- A step at an arrival decodes it and performs it on the state without that turn. -/
theorem step_arrival {s : State} {a : Arrival} {rest : List Turn} (h : s.env.agenda = .arrival a :: rest) :
    step s = match decode (.arrival a) with
      | .ok i => exec i (s.withAgenda rest)
      | .reject r => onReject r (s.withAgenda rest) := by
  have hf : fetch s = (.arrival a, s.withAgenda rest) := by simp [fetch, h]
  unfold step
  cases hd : decode (.arrival a) <;> simp [hf, hd]

/-- The Engine has the turn if the agenda gives it or is empty. -/
theorem fetch_engine {s u : State} (h : (s.env.agenda = [] ∧ u = s) ∨
    (∃ rest, s.env.agenda = .engine :: rest ∧ u = s.withAgenda rest)) : fetch s = engineMessage u := by
  obtain ⟨h, rfl⟩ | ⟨rest, h, rfl⟩ := h <;> simp [fetch, h]

/-- A turn's message is an arrival of the agenda, or the block's selecting state with a draw. -/
theorem fetch_message (s : State) :
    (∃ a rest, s.env.agenda = .arrival a :: rest ∧ (fetch s).1 = .arrival a) ∨
    ∃ allocOk, (fetch s).1 = .select (selectorOf s.block) allocOk := by
  have he : ∀ u : State, ∃ allocOk, (engineMessage u).1 = .select (selectorOf u.block) allocOk := by
    intro u
    unfold engineMessage
    simp only []
    split <;> exact ⟨_, rfl⟩
  unfold fetch
  split
  · exact .inr (he s)
  · exact .inr (he _)
  · rename_i a rest h
    exact .inl ⟨a, rest, h, rfl⟩

/-- Everything the Engine's selecting state can select, and where (R84). -/
theorem selected_cases {b : Block} {allocOk : Bool} {i : Instr}
    (h : decode (.select (selectorOf b) allocOk) = .ok i) :
    (b.phase = .validateDimensions ∧ i = .vdim) ∨ (b.phase = .checkDimensions ∧ i = .cdim) ∨
    (b.phase = .pack ∧ b.outlen = 0 ∧ i = .alloc allocOk) ∨
    (b.phase = .pack ∧ b.outlen ≠ 0 ∧ b.idx.toNat < b.pixels ∧ i = .packpx) ∨
    (b.phase = .pack ∧ b.outlen ≠ 0 ∧ b.idx.toNat = b.pixels ∧ i = .finish) := by
  cases hp : b.phase <;> simp [decode, decodeSelector, selectorOf, hp, phaseCode] at h <;> simp_all
  by_cases ho : b.outlen = 0#18
  · simp only [ho, if_true, Decoded.ok.injEq] at h
    simp [ho, h]
  · simp only [ho, if_false] at h
    by_cases h1 : b.idx.toNat < b.pixels
    · simp only [h1, if_true, Decoded.ok.injEq] at h
      simp [ho, h1, h]
    · by_cases h2 : b.idx.toNat = b.pixels
      · simp [h2] at h
        simp [ho, h2, h]
      · simp [h1, h2] at h

/-- With legal dimensions there are 1 to 65536 pixels (R118). -/
theorem pixels_bounds {b : Block} (h : legalDims b) : 1 ≤ b.pixels ∧ b.pixels ≤ 65536 := by
  obtain ⟨⟨h1, h2⟩, ⟨h3, h4⟩⟩ := h
  exact ⟨Nat.mul_pos h1 h3, by simpa [Block.pixels] using Nat.mul_le_mul h2 h4⟩

/-- One step first, then the rest of the run. -/
theorem run_succ {k : Nat} {s t u : State} (h : step s = .next t) (h2 : run k t = .next u) : run (k + 1) s = .next u := by
  simp only [run, h]
  exact h2

/-- The invariant speaks of the block and of the delivered bytes only. -/
theorem machineInv_congr {s t : State} (hb : t.block = s.block) (hd : t.env.delivered = s.env.delivered)
    (h : MachineInv s) : MachineInv t := by
  obtain ⟨h1, h2, h3, h4⟩ := h
  exact ⟨by rw [hb, hd]; exact h1, by rw [hb]; exact h2, by rw [hb]; exact h3, by rw [hb, hd]; exact h4⟩

end Sys2Proof.Machine
end

