-- ==== Sys2Proof/Laws/Calls.lean ====
section
/-! SUPPORT. The run of a list of turns, and the Host's side of `decode_image`. -/

namespace Sys2Proof.Machine

theorem andThen_eq_next {σ τ : Type} {o : Host.Outcome σ Fault Refusal} {next : σ → Host.Outcome τ Fault Refusal} {y : τ} :
    andThen o next = .next y ↔ ∃ x, o = .next x ∧ next x = .next y := by
  cases o <;> simp [andThen]

@[simp] theorem andThen_next {σ τ : Type} (x : σ) (next : σ → Host.Outcome τ Fault Refusal) :
    andThen (.next x) next = next x := rfl

/-- A turn first, then the others. -/
theorem transact_cons {turn : Turn} {turns : List Turn} {s t u : State} {reads : List BusData}
    (h : step (s.withAgenda (turn :: s.env.agenda)) = .next t) (h2 : transact turns t = .next (u, reads)) :
    transact (turn :: turns) s = .next (u, if turn.reads then t.env.busData.toList ++ reads else reads) := by
  simp [transact, h, h2]

/-- Two lists of turns, one after the other. -/
theorem transact_append {turns turns' : List Turn} : ∀ {s t u : State} {reads reads' : List BusData},
    transact turns s = .next (t, reads) → transact turns' t = .next (u, reads') →
    transact (turns ++ turns') s = .next (u, reads ++ reads') := by
  induction turns with
  | nil =>
    intro s t u reads reads' h h2
    simp only [transact, Host.Outcome.next.injEq, Prod.mk.injEq] at h
    obtain ⟨rfl, rfl⟩ := h
    exact h2
  | cons turn turns ih =>
    intro s t u reads reads' h h2
    simp only [transact, andThen_eq_next] at h
    obtain ⟨v, hv, ⟨w, ds⟩, hw, he⟩ := h
    simp only [Host.Outcome.next.injEq, Prod.mk.injEq] at he
    obtain ⟨rfl, rfl⟩ := he
    rw [List.cons_append, transact_cons hv (ih hw h2)]
    split <;> simp

/-- An arrival that decodes, as the turn that is taken first, is performed on the state as it is. -/
theorem step_presented {s : State} {a : Arrival} {i : Instr} (h : decode (.arrival a) = .ok i) :
    step (s.withAgenda (.arrival a :: s.env.agenda)) = exec i s := by
  rw [step_arrival rfl, h]
  rfl

/-- The Engine's turn given to it is the turn it has at an empty agenda. -/
theorem step_engine_presented {s : State} (h : s.env.agenda = []) :
    step (s.withAgenda (.engine :: s.env.agenda)) = step s := by
  have h2 : fetch (s.withAgenda (.engine :: s.env.agenda)) = fetch s := by
    rw [fetch_engine (.inr ⟨s.env.agenda, rfl, rfl⟩), fetch_engine (.inl ⟨h, rfl⟩)]
    rfl
  unfold step
  rw [h2]

/-- No operation changes the coming turns. -/
theorem exec_agenda {i : Instr} {s t : State} (h : exec i s = .next t) : t.env.agenda = s.env.agenda := by
  have hproc : ∀ {t}, execProcess s = .next t → t.env.agenda = s.env.agenda := by
    intro t h; obtain ⟨-, rfl⟩ | ⟨-, rfl⟩ := execProcess_next.mp h <;> rfl
  have hrel : ∀ {t}, execRelease s = .next t → t.env.agenda = s.env.agenda := by
    intro t h; obtain ⟨-, rfl⟩ | ⟨-, -, rfl⟩ := execRelease_next.mp h <;> rfl
  cases i with
  | nop => rw [execNop_next.mp h]
  | process => exact hproc h
  | release => exact hrel h
  | regrd off => obtain ⟨-, rfl⟩ := execRegrd_next.mp h; rfl
  | regwr off v =>
    obtain ⟨rfl, hc⟩ | ⟨-, hp, rfl⟩ | ⟨-, hp, rfl⟩ | ⟨-, -, -, -, rfl⟩ := execRegwr_next.mp h
    · obtain ⟨-, hc⟩ | ⟨rfl, hc⟩ | ⟨-, -, rfl⟩ := issueCommand_next.mp hc
      · exact hproc hc
      · exact hrel hc
      · rfl
    · rfl
    · rfl
    · rfl
  | dstrd off => obtain ⟨-, -, b, -, rfl⟩ := execDstrd_next.mp h; rfl
  | decOk aw ah buf => obtain ⟨hp, hl, rfl⟩ | ⟨-, rfl⟩ := execDecOk_next.mp h <;> rfl
  | decErr r => obtain ⟨hp, rfl⟩ | ⟨-, rfl⟩ := execDecErr_next.mp h <;> rfl
  | decNomem => obtain ⟨hp, rfl⟩ | ⟨-, rfl⟩ := execDecNomem_next.mp h <;> rfl
  | vdim => obtain ⟨hp, ⟨-, -, rfl⟩ | ⟨-, rfl⟩⟩ := execVdim_next.mp h <;> rfl
  | cdim => obtain ⟨hp, ⟨-, -, rfl⟩ | ⟨-, rfl⟩⟩ := execCdim_next.mp h <;> rfl
  | alloc ok => obtain ⟨hp, -, ⟨-, len, -, rfl⟩ | ⟨-, rfl⟩⟩ := execAlloc_next.mp h <;> rfl
  | packpx => obtain ⟨hp, -, -, -, r, g, bl, -, idx, -, rfl⟩ := execPackpx_next.mp h; rfl
  | finish => obtain ⟨hp, -, -, rfl⟩ := execFinish_next.mp h; rfl
  | reset => rw [execReset_next.mp h]; rfl

/-- With no turn to come there is none after a step. -/
theorem step_agenda {s t : State} (h : s.env.agenda = []) (hs : step s = .next t) : t.env.agenda = [] := by
  have hf : (fetch s).2.env.agenda = [] := by
    
    rw [fetch_engine (.inl ⟨h, rfl⟩)]
    unfold engineMessage
    simp only []
    split <;> simp [h]
  obtain ⟨i, -, hx⟩ | ⟨r, -, rfl⟩ := step_next hs
  · rw [exec_agenda hx, hf]
  · exact hf

/-- The Engine's turns given one by one are the run of the machine that nothing faces. -/
theorem transact_engines : ∀ n (s t : State), s.env.agenda = [] → run n s = .next t →
    transact (List.replicate n .engine) s = .next (t, []) ∧ t.env.agenda = []
  | 0, s, t, h, hr => by
    obtain rfl := Host.Outcome.next.inj hr
    exact ⟨rfl, h⟩
  | n + 1, s, t, h, hr => by
    simp only [run] at hr
    split at hr
    · rename_i u hu
      obtain ⟨h1, h2⟩ := transact_engines n u t (step_agenda h hu) hr
      refine ⟨?_, h2⟩
      rw [List.replicate_succ]
      have := transact_cons ((step_engine_presented h).trans hu) h1
      simpa [Turn.reads] using this
    · cases hr
    · cases hr

/-- Reading `DST` in `Done`, byte by byte: what is returned are the bytes, and the block keeps its state. -/
theorem transact_readDst : ∀ (offs : List Nat) (s : State), s.block.phase = .done →
    (∀ off ∈ offs, off < s.block.outlen.toNat ∧ (Memory.read s.block.dst off).isSome) →
    ∃ t reads, transact (offs.map fun off => .arrival (.readDst off)) s = .next (t, reads) ∧ t.block = s.block ∧
      t.env.agenda = s.env.agenda ∧ bytesOf reads = offs.filterMap fun off => Memory.read s.block.dst off
  | [], s, _, _ => ⟨s, [], rfl, rfl, rfl, rfl⟩
  | off :: offs, s, hp, h => by
    obtain ⟨hlt, hb⟩ := h off (by simp)
    obtain ⟨b, hb⟩ := Option.isSome_iff_exists.mp hb
    have hx : exec (.dstrd off) s = .next (s.returning (.byte b)) := execDstrd_next.mpr ⟨hp, hlt, b, hb, rfl⟩
    obtain ⟨t, reads, h1, h2, h3, h4⟩ := transact_readDst offs (s.returning (.byte b)) hp
      (fun o ho => h o (List.mem_cons_of_mem _ ho))
    refine ⟨t, _, transact_cons ((step_presented rfl).trans hx) h1, h2, h3, ?_⟩
    simp only [State.returning_block] at h4
    simp only [Turn.reads, if_true, State.returning_env, Option.toList_some, List.singleton_append, List.filterMap_cons, hb, ← h4]
    rfl

end Sys2Proof.Machine
end

