-- ==== Sys2Proof/Laws/Lanes.lean ====
section
/-! SUPPORT. The packed word bit by bit. -/

namespace Sys2Proof.Machine

/-- A bit of three fields of 5, 6 and 5 bits side by side. -/
theorem getLsbD_three_fields (x : BitVec 5) (y : BitVec 6) (z : BitVec 5) (i : Nat) :
    BitVec.getLsbD (w := 16) (x ++ y ++ z) i =
      if i < 5 then z.getLsbD i else if i < 11 then y.getLsbD (i - 5) else x.getLsbD (i - 11) := by
  have h : BitVec.getLsbD (w := 5 + 6 + 5) (x ++ y ++ z) i = _ := BitVec.getLsbD_append
  refine Eq.trans h ?_
  rw [BitVec.getLsbD_append]
  by_cases h1 : i < 5
  · simp [h1]
  · by_cases h2 : i < 11
    · have : i - 5 < 6 := by omega
      simp [h1, h2, this]
    · have : ¬i - 5 < 6 := by omega
      simp [h1, h2, this]
      rw [show i - 5 - 6 = i - 11 by omega]

end Sys2Proof.Machine
end

