-- ==== Sys2Proof/Laws/Memory.lean ====
section
/-! SUPPORT. The laws of the two address spaces: reads, writes, and the canonical form. -/

namespace Sys2Proof.Machine

/-! ## Writing keeps the offsets -/

@[simp] theorem Memory.write_offsets (m : Memory) (off : Nat) (b : Byte) :
    (Memory.write m off b).map Prod.fst = m.map Prod.fst := by
  unfold Memory.write
  rw [List.map_map]
  refine List.map_congr_left fun c _ => ?_
  simp only [Function.comp]
  split <;> rfl

@[simp] theorem Memory.write_length (m : Memory) (off : Nat) (b : Byte) :
    (Memory.write m off b).length = m.length := by
  simp [Memory.write]

@[simp] theorem Memory.store_offsets (bs : List Byte) :
    ∀ (m : Memory) (off : Nat), (Memory.store m off bs).map Prod.fst = m.map Prod.fst := by
  induction bs with
  | nil => intro m off; rfl
  | cons b bs ih => intro m off; rw [Memory.store, ih, Memory.write_offsets]

@[simp] theorem Memory.store_length (bs : List Byte) (m : Memory) (off : Nat) :
    (Memory.store m off bs).length = m.length := by
  induction bs generalizing m off with
  | nil => rfl
  | cons b bs ih => rw [Memory.store, ih, Memory.write_length]

/-! ## Reading after writing -/

theorem Memory.read_write_other (m : Memory) {off a : Nat} (b : Byte) (h : a ≠ off) :
    Memory.read (Memory.write m off b) a = Memory.read m a := by
  induction m with
  | nil => rfl
  | cons c m ih =>
    obtain ⟨k, v⟩ := c
    have hw : Memory.write ((k, v) :: m) off b = (k, if k = off then b else v) :: Memory.write m off b := by
      simp only [Memory.write, List.map_cons]
      split <;> rfl
    rw [hw, Memory.read, Memory.read, ih]
    by_cases hk : k = a
    · have : k ≠ off := fun e => h (hk ▸ e)
      simp [hk, h]
    · simp [hk]

theorem Memory.read_write_same (m : Memory) {off : Nat} (b : Byte) {v : Byte} (h : Memory.read m off = some v) :
    Memory.read (Memory.write m off b) off = some b := by
  induction m with
  | nil => simp [Memory.read] at h
  | cons c m ih =>
    obtain ⟨k, w⟩ := c
    have hw : Memory.write ((k, w) :: m) off b = (k, if k = off then b else w) :: Memory.write m off b := by
      simp only [Memory.write, List.map_cons]
      split <;> rfl
    rw [hw, Memory.read]
    rw [Memory.read] at h
    by_cases hk : k = off
    · simp [hk]
    · simp only [hk, if_false] at h ⊢
      exact ih h

/-- Storing a run of bytes leaves every other offset alone. -/
theorem Memory.read_store_other (bs : List Byte) :
    ∀ (m : Memory) {off a : Nat}, a < off ∨ off + bs.length ≤ a →
      Memory.read (Memory.store m off bs) a = Memory.read m a := by
  induction bs with
  | nil => intro m off a _; rfl
  | cons b bs ih =>
    intro m off a h
    simp only [List.length_cons] at h
    rw [Memory.store, ih _ (by omega), Memory.read_write_other _ _ (by omega)]

/-! ## Which offsets exist -/

theorem Memory.read_isSome_iff (m : Memory) (a : Nat) :
    (Memory.read m a).isSome = true ↔ a ∈ m.map Prod.fst := by
  induction m with
  | nil => simp [Memory.read]
  | cons c m ih =>
    obtain ⟨k, v⟩ := c
    rw [Memory.read, List.map_cons, List.mem_cons]
    by_cases hk : k = a
    · simp [hk]
    · rw [if_neg hk, ih]
      exact ⟨Or.inr, fun h => h.resolve_left fun e => hk e.symm⟩

/-- In canonical form exactly the offsets below the length exist (R40). -/
theorem Memory.read_isSome_of_wf {m : Memory} (h : Memory.wf m) (a : Nat) :
    (Memory.read m a).isSome = true ↔ a < m.length := by
  rw [Memory.read_isSome_iff, h, List.mem_range]

theorem Memory.exists_read_of_wf {m : Memory} (h : Memory.wf m) {a : Nat} (ha : a < m.length) :
    ∃ b, Memory.read m a = some b :=
  Option.isSome_iff_exists.mp ((Memory.read_isSome_of_wf h a).mpr ha)

theorem Memory.read_eq_none_of_wf {m : Memory} (h : Memory.wf m) {a : Nat} (ha : m.length ≤ a) :
    Memory.read m a = none := by
  rw [← Option.not_isSome_iff_eq_none, Memory.read_isSome_of_wf h]
  omega

/-- The offsets of a space in canonical form are strictly rising. -/
theorem Memory.wf_rising {m : Memory} (h : Memory.wf m) : (m.map Prod.fst).Pairwise (· < ·) := by
  rw [h]
  exact List.pairwise_lt_range

/-! ## Every operation keeps the canonical form -/

theorem Memory.wf_of_offsets {m m' : Memory} (ho : m'.map Prod.fst = m.map Prod.fst) (h : Memory.wf m) :
    Memory.wf m' := by
  have hl : m'.length = m.length := by simpa using congrArg List.length ho
  unfold Memory.wf
  rw [ho, hl]
  exact h

theorem Memory.nil_wf : Memory.wf [] := rfl

theorem Memory.write_wf {m : Memory} (off : Nat) (b : Byte) (h : Memory.wf m) : Memory.wf (Memory.write m off b) :=
  Memory.wf_of_offsets (Memory.write_offsets m off b) h

theorem Memory.store_wf {m : Memory} (off : Nat) (bs : List Byte) (h : Memory.wf m) :
    Memory.wf (Memory.store m off bs) :=
  Memory.wf_of_offsets (Memory.store_offsets bs m off) h

/-- Everything `MemWrite` can do (R7). -/
theorem Memory.writeBytes_eq_some {m m' : Memory} {off : Nat} {bs : List Byte} :
    Memory.writeBytes m off bs = some m' ↔ off + bs.length ≤ m.length ∧ m' = Memory.store m off bs := by
  unfold Memory.writeBytes
  split
  · rename_i h
    simp [h, eq_comm]
  · rename_i h
    simp [h]

theorem Memory.writeBytes_wf {m m' : Memory} {off : Nat} {bs : List Byte} (hw : Memory.writeBytes m off bs = some m')
    (h : Memory.wf m) : Memory.wf m' := by
  obtain ⟨-, rfl⟩ := Memory.writeBytes_eq_some.mp hw
  exact Memory.store_wf off bs h

theorem Memory.ofBytesFrom_offsets (bs : List Byte) :
    ∀ k, (Memory.ofBytesFrom k bs).map Prod.fst = List.range' k bs.length := by
  induction bs with
  | nil => intro k; rfl
  | cons b bs ih => intro k; simp [Memory.ofBytesFrom, ih, List.range'_succ]

@[simp] theorem Memory.ofBytes_length (bs : List Byte) : (Memory.ofBytes bs).length = bs.length := by
  simpa [Memory.ofBytes] using congrArg List.length (Memory.ofBytesFrom_offsets bs 0)

theorem Memory.ofBytes_wf (bs : List Byte) : Memory.wf (Memory.ofBytes bs) := by
  unfold Memory.wf
  rw [Memory.ofBytes_length, List.range_eq_range']
  exact Memory.ofBytesFrom_offsets bs 0

@[simp] theorem Memory.fresh_length (n : Nat) (value : Nat → Byte) : (Memory.fresh n value).length = n := by
  simp [Memory.fresh]

theorem Memory.fresh_wf (n : Nat) (value : Nat → Byte) : Memory.wf (Memory.fresh n value) := by
  unfold Memory.wf
  simp [Memory.fresh, Function.comp_def]

/-! ## Runs of bytes -/

/-- A delivered buffer reads back as it was delivered. -/
theorem Memory.read_ofBytesFrom (bs : List Byte) :
    ∀ k i, Memory.read (Memory.ofBytesFrom k bs) (k + i) = bs[i]? := by
  induction bs with
  | nil => intro k i; rfl
  | cons b bs ih =>
    intro k i
    rw [Memory.ofBytesFrom, Memory.read]
    cases i with
    | zero => simp
    | succ i =>
      rw [if_neg (by omega), show k + (i + 1) = k + 1 + i by omega, ih]
      simp

theorem Memory.read_ofBytes (bs : List Byte) (i : Nat) : Memory.read (Memory.ofBytes bs) i = bs[i]? := by
  simpa [Memory.ofBytes] using Memory.read_ofBytesFrom bs 0 i

/-- Reading two bytes is reading each of them. -/
theorem Memory.readBytes_two {m : Memory} {off : Nat} {x y : Byte} :
    Memory.readBytes m off 2 = some [x, y] ↔ Memory.read m off = some x ∧ Memory.read m (off + 1) = some y := by
  simp only [Memory.readBytes]
  cases Memory.read m off <;> cases Memory.read m (off + 1) <;> simp

/-- The two bytes a store of two writes, where both exist. -/
theorem Memory.readBytes_store_two {m : Memory} (h : Memory.wf m) {off : Nat} (x y : Byte) (hl : off + 2 ≤ m.length) :
    Memory.readBytes (Memory.store m off [x, y]) off 2 = some [x, y] := by
  obtain ⟨u, hu⟩ := Memory.exists_read_of_wf h (a := off) (by omega)
  obtain ⟨v, hv⟩ := Memory.exists_read_of_wf h (a := off + 1) (by omega)
  have hv' : Memory.read (Memory.write m off x) (off + 1) = some v := by
    rw [Memory.read_write_other _ _ (by omega), hv]
  refine Memory.readBytes_two.mpr ⟨?_, ?_⟩
  · rw [Memory.store, Memory.store, Memory.store, Memory.read_write_other _ _ (by omega),
      Memory.read_write_same m x hu]
  · exact Memory.read_write_same _ y hv'

/-- Reading a run of bytes depends on those bytes alone. -/
theorem Memory.readBytes_congr {m m' : Memory} (n : Nat) :
    ∀ off, (∀ a, off ≤ a → a < off + n → Memory.read m' a = Memory.read m a) →
      Memory.readBytes m' off n = Memory.readBytes m off n := by
  induction n with
  | zero => intro off _; rfl
  | succ n ih =>
    intro off h
    rw [Memory.readBytes, Memory.readBytes, h off (by omega) (by omega),
      ih (off + 1) fun a h1 h2 => h a (by omega) (by omega)]

/-- In canonical form a pixel whose three bytes exist can be read. -/
theorem exists_readPixel {m : Memory} (h : Memory.wf m) {i : Nat} (hi : 3 * i + 3 ≤ m.length) :
    ∃ r g bl, readPixel m i = some (r, g, bl) := by
  obtain ⟨r, hr⟩ := Memory.exists_read_of_wf h (a := 3 * i) (by omega)
  obtain ⟨g, hg⟩ := Memory.exists_read_of_wf h (a := 3 * i + 1) (by omega)
  obtain ⟨bl, hb⟩ := Memory.exists_read_of_wf h (a := 3 * i + 1 + 1) (by omega)
  exact ⟨r, g, bl, by simp [readPixel, srcOff, Config.bppSrc, Memory.readBytes, hr, hg, hb]⟩

end Sys2Proof.Machine
end

