-- ==== Sys2Proof/Laws/PerInstr.lean ====
section
/-! SUPPORT. Statements made once per operation. -/

/-- The door an operation comes in by: the Engine's operations have no word and are selected by the state (R84), all others
are presented at a door (R70). -/
def Sys2Proof.Laws.EncodeDoor.Statement (i : Sys2Proof.Instr) : Prop :=
  (Sys2Proof.Machine.engineOp i → ∃ sel allocOk, Sys2Proof.encode i = .select sel allocOk) ∧
  (¬Sys2Proof.Machine.engineOp i → ∃ a, Sys2Proof.encode i = .arrival a)

namespace Sys2Proof.Laws.EncodeDoor

open Sys2Proof.Machine

/-- An operation that is presented at a door. -/
theorem of_arrival {i : Instr} {a : Arrival} (he : encode i = .arrival a) (hn : ¬engineOp i) : Statement i :=
  ⟨fun h => absurd h hn, fun _ => ⟨a, he⟩⟩

/-- An operation that the state selects. -/
theorem of_select {i : Instr} {sel : Selector} {b : Bool} (he : encode i = .select sel b) (h : engineOp i) : Statement i :=
  ⟨fun _ => ⟨sel, b, he⟩, fun hn => absurd h hn⟩

theorem nop : Statement .nop := of_arrival rfl id
theorem process : Statement .process := of_arrival rfl id
theorem release : Statement .release := of_arrival rfl id
theorem regrd (off : Nat) : Statement (.regrd off) := of_arrival rfl id
theorem regwr (off : Nat) (v : Word) : Statement (.regwr off v) := of_arrival rfl id
theorem dstrd (off : Nat) : Statement (.dstrd off) := of_arrival rfl id
theorem decOk (aw ah : Word) (buf : List Byte) : Statement (.decOk aw ah buf) := of_arrival rfl id
theorem decErr (reason : DecodeReason) : Statement (.decErr reason) := of_arrival rfl id
theorem decNomem : Statement .decNomem := of_arrival rfl id
theorem vdim : Statement .vdim := of_select rfl trivial
theorem cdim : Statement .cdim := of_select rfl trivial
theorem alloc (allocOk : Bool) : Statement (.alloc allocOk) := of_select rfl trivial
theorem packpx : Statement .packpx := of_select rfl trivial
theorem finish : Statement .finish := of_select rfl trivial
theorem reset : Statement .reset := of_arrival rfl id

end Sys2Proof.Laws.EncodeDoor
end

