-- ==== Sys2Proof/Tests/Slice0.lean ====
section
/-! SUPPORT. Tests. Expected values are those of spec/95_test_vectors.md (S1, V1, V4 to V9, P1, P7) and of the tables of
spec/30_encoding.md, written out by hand; the witnesses show that the hypotheses of the statements can be met. -/

namespace Sys2Proof.Tests

open Sys2Proof Sys2Proof.Machine

/-! ## Helpers -/

/-- The state with the given block, nothing in store. -/
def at' (b : Block) : State := { State.reset with block := b }

/-- A block in a phase, with dimensions and nothing else. -/
def blockIn (p : Phase) (ew eh : Word) : Block := { Block.reset with phase := p, ew := ew, eh := eh }

/-- A block before `CDIM`. -/
def beforeCdim (ew eh aw ah : Word) (buf : List Byte) : Block :=
  { blockIn .checkDimensions ew eh with aw := aw, ah := ah, src := Memory.ofBytes buf }

/-- A block after an answer, if there is a next state. -/
def blockAfter : Host.Outcome State Fault Refusal → Option Block
  | .next t => some t.block
  | .fault _ => none
  | .refused _ => none

/-- What a read returned. -/
def returned : Host.Outcome State Fault Refusal → Option BusData
  | .next t => t.env.busData
  | .fault _ => none
  | .refused _ => none

/-- What stopped the machine. -/
def refusalOf : Host.Outcome State Fault Refusal → Option Refusal
  | .refused r => some r
  | .next _ => none
  | .fault _ => none

/-- `PHASE`, `ERR` and `STATUS` after an answer. -/
def verdict (o : Host.Outcome State Fault Refusal) : Option (Phase × ErrKind × Word) :=
  (blockAfter o).map fun b => (b.phase, b.err, statusWord b.phase b.err)

/-- The 1 by 1 call of P7, trace A, after `CDIM`: the pixel `DE AD BE`. -/
def afterCdim1 : Block := { beforeCdim 1 1 1 1 [0xDE, 0xAD, 0xBE] with phase := .pack }

/-- The same call after `ALLOC`, in a buffer of two bytes. -/
def afterAlloc1 : Block := { afterCdim1 with outlen := 2, dst := Memory.ofBytes [0x5A, 0xA5] }

/-- The same call after its `PACKPX`: the word is `0xDD77`. -/
def afterPackpx1 : Block := { afterAlloc1 with idx := 1, dst := Memory.ofBytes [0x77, 0xDD] }

/-- The end of P1's 2 by 2 call. -/
def doneP1 : Block :=
  { blockIn .done 2 2 with
    aw := 2, ah := 2, idx := 4, outlen := 8
    dst := Memory.ofBytes [0x00, 0xF8, 0xE0, 0x07, 0x1F, 0x00, 0x00, 0x00] }

/-! ## Well-formedness: each check refuses an ill-formed term -/

theorem test_misaligned_read_is_ill_formed : (Instr.regrd 0x06).wellFormed = false := by decide
theorem test_aligned_read_is_well_formed : (Instr.regrd 0x20).wellFormed = true := by decide
theorem test_misaligned_write_is_ill_formed : (Instr.regwr 0x0D 1).wellFormed = false := by decide
theorem test_aligned_write_is_well_formed : (Instr.regwr 0x0C 1).wellFormed = true := by decide
theorem test_short_buffer_is_ill_formed : (Instr.decOk 2 2 [0xFF]).wellFormed = false := by decide
theorem test_exact_buffer_is_well_formed : (Instr.decOk 1 1 [0xDE, 0xAD, 0xBE]).wellFormed = true := by decide
/-- An exact product of naturals, not one that wraps at 32 bits (R104, D20). -/
theorem test_wrapping_product_is_ill_formed : (Instr.decOk 0x10000 0x10000 []).wellFormed = false := by decide

/-! ## Decoding, by words written out from R79, R82, R83, R84 -/

theorem test_decode_nop : decode (.arrival (.command 0b00000000000000000000000000000000#32)) = .ok .nop := by decide
theorem test_decode_process : decode (.arrival (.command 0b00000000000000000000000000000001#32)) = .ok .process := by decide
theorem test_decode_release : decode (.arrival (.command 0b00000000000000000000000000000010#32)) = .ok .release := by decide
theorem test_decode_reserved_op : decode (.arrival (.command 0x00000003#32)) = .reject (.reservedCommand 3) := by decide
theorem test_decode_reserved_bits : decode (.arrival (.command 0x00000101#32)) = .reject (.reservedCommand 0x101) := by decide
theorem test_decode_decOk : decode (.arrival (.response 0b00000000000000000000000000010000#32 3 2 [])) = .ok (.decOk 3 2 []) := by
  decide
theorem test_decode_decErr_malformed :
    decode (.arrival (.response 0b00000000000000000000001000010001#32 0 0 [])) = .ok (.decErr .malformedHeader) := by decide
theorem test_decode_decErr_truncated :
    decode (.arrival (.response 0b00000000000000000000001100010001#32 0 0 [])) = .ok (.decErr .truncatedData) := by decide
theorem test_decode_decErr_unsupported :
    decode (.arrival (.response 0b00000000000000000000010000010001#32 0 0 [])) = .ok (.decErr .unsupportedFeature) := by decide
theorem test_decode_decErr_internal :
    decode (.arrival (.response 0b00000000000000000000010100010001#32 0 0 [])) = .ok (.decErr .internalDecodeFailure) := by
  decide
theorem test_decode_decNomem : decode (.arrival (.response 0b00000000000000000000000000010010#32 0 0 [])) = .ok .decNomem := by
  decide
theorem test_decode_reason_1 :
    decode (.arrival (.response 0x00000111#32 0 0 [])) = .reject (.reservedResponse 0x111) := by decide
theorem test_decode_reason_6 :
    decode (.arrival (.response 0x00000611#32 0 0 [])) = .reject (.reservedResponse 0x611) := by decide
theorem test_decode_nomem_with_reason :
    decode (.arrival (.response 0x00000112#32 0 0 [])) = .reject (.reservedResponse 0x112) := by decide
theorem test_decode_response_high_bits :
    decode (.arrival (.response 0x00001211#32 0 0 [])) = .reject (.reservedResponse 0x1211) := by decide
theorem test_decode_regrd : decode (.arrival (.readReg 0x1C)) = .ok (.regrd 0x1C) := by decide
theorem test_decode_regrd_misaligned : decode (.arrival (.readReg 0x1E)) = .reject (.misaligned 0x1E) := by decide
theorem test_decode_regwr : decode (.arrival (.writeReg 0x10 0x00000100#32)) = .ok (.regwr 0x10 256) := by decide
theorem test_decode_dstrd : decode (.arrival (.readDst 7)) = .ok (.dstrd 7) := by decide
theorem test_decode_vdim : decode (.select { phase := 0b001#3, noBuffer := true, progress := .eq } false) = .ok .vdim := by decide
theorem test_decode_cdim : decode (.select { phase := 0b011#3, noBuffer := true, progress := .lt } false) = .ok .cdim := by decide
theorem test_decode_alloc :
    decode (.select { phase := 0b100#3, noBuffer := true, progress := .lt } true) = .ok (.alloc true) := by decide
theorem test_decode_packpx : decode (.select { phase := 0b100#3, noBuffer := false, progress := .lt } true) = .ok .packpx := by
  decide
theorem test_decode_finish : decode (.select { phase := 0b100#3, noBuffer := false, progress := .eq } true) = .ok .finish := by
  decide
theorem test_decode_no_operation :
    decode (.select { phase := 0b010#3, noBuffer := true, progress := .lt } true) = .reject .noOperation := by decide
theorem test_decode_reset : decode (.arrival .resetLine) = .ok .reset := by decide

/-- The encoder writes R82's word of `DEC.ERR TruncatedData` (R102's example). -/
theorem test_encode_truncated : encode (.decErr .truncatedData) = .arrival (.response 0x00000311#32 0 0 []) := by decide

/-- The table's rows, by their numbering: `DEC.OK` with its two further words above word 0. -/
theorem test_table_decOk : decodeTableWord 96 0x000000020000000300000010 = some (.decOk 3 2 []) := by decide
theorem test_table_vdim : decodeTableWord 8 1 = some .vdim := by decide
theorem test_table_cdim : decodeTableWord 8 3 = some .cdim := by decide
theorem test_table_alloc : decodeTableWord 8 4 = some (.alloc true) := by decide
theorem test_table_regrd : decodeTableWord 8 0 = some (.regrd 0) := by decide
theorem test_table_reset : decodeTableWord 0 0 = some .reset := by decide

/-- A table word is what the very next step takes, from reset (log 17). -/
theorem test_fetch_word_vdim :
    verdict (step (State.reset.withFetchWord 8 1)) = some (.failed, .invalidDimensions, 0x00000026) := by decide
theorem test_fetch_word_process :
    verdict (step (State.reset.withFetchWord 32 1)) = some (.validateDimensions, .none, 0x00000009) := by decide
theorem test_fetch_word_packpx :
    (blockAfter (step (State.reset.withFetchWord 8 0b01100))).map (·.idx) = some 1 := by decide
theorem test_fetch_word_finish :
    verdict (step (State.reset.withFetchWord 8 0b11100)) = some (.done, .none, 0x00000015) := by decide

/-! ## The operations, one step each -/

/-- R143's example: in `Pack`, `NOP` leaves every register as it was. -/
theorem test_nop : blockAfter (exec .nop (at' afterAlloc1)) = some afterAlloc1 := by decide

/-- R141's example, and V8's first row. -/
theorem test_process : verdict (exec .process (at' (blockIn .start 64 32))) = some (.validateDimensions, .none, 0x00000009) := by
  decide
theorem test_process_dropped : blockAfter (exec .process (at' afterAlloc1)) = some afterAlloc1 := by decide

/-- P1's step 13, and V8's third row. -/
theorem test_release : blockAfter (exec .release (at' doneP1)) = some Block.reset := by decide
theorem test_release_dropped : blockAfter (exec .release (at' (blockIn .decode 2 2))) = some (blockIn .decode 2 2) := by decide

/-- R148's examples. -/
theorem test_regrd_outlen : returned (exec (.regrd 0x20) (at' doneP1)) = some (.word 0x00000008) := by decide
theorem test_regrd_status : returned (exec (.regrd 0x04) (at' doneP1)) = some (.word 0x00000015) := by decide

/-- R149's example: 256 needs nine bits; and V8's row "read-only". -/
theorem test_regwr_ew : (blockAfter (exec (.regwr 0x0C 0x00000100) State.reset)).map (·.ew) = some 256 := by decide
theorem test_regwr_aw_dropped : blockAfter (exec (.regwr 0x14 5) State.reset) = some Block.reset := by decide

/-- R150's example, and V9's third row. -/
theorem test_dstrd : returned (exec (.dstrd 1) (at' doneP1)) = some (.byte 0xF8) := by decide
theorem test_dstrd_past_end : refusalOf (exec (.dstrd 8) (at' doneP1)) = some (.dstReadNotAdmitted 8) := by decide

/-- R101's example. -/
theorem test_decOk :
    (blockAfter (exec (.decOk 2 2 [0xFF, 0, 0, 0, 0xFF, 0, 0, 0, 0xFF, 0, 0, 0]) (at' (blockIn .decode 2 2)))).map
      (fun b => (b.aw, b.ah, b.src.length, b.phase, Memory.read b.src 4)) =
      some (2, 2, 12, .checkDimensions, some 0xFF) := by decide
theorem test_decOk_short :
    refusalOf (exec (.decOk 2 2 [0xFF]) (at' (blockIn .decode 2 2))) = some .decoderBufferLength := by decide

/-- R102's example, and V8's last row. -/
theorem test_decErr :
    verdict (exec (.decErr .truncatedData) (at' (blockIn .decode 64 32))) = some (.failed, .truncatedData, 0x00000026) := by
  decide
theorem test_decErr_second :
    blockAfter (exec (.decErr .truncatedData) (at' (beforeCdim 1 1 1 1 [1, 2, 3]))) = some (beforeCdim 1 1 1 1 [1, 2, 3]) := by
  decide

/-- R103's example. -/
theorem test_decNomem :
    verdict (exec .decNomem (at' (blockIn .decode 64 32))) = some (.failed, .allocationFailure, 0x000000A6) := by decide

/-- V4: the greatest legal pair, and the row whose low 16 bits are 1. -/
theorem test_vdim : verdict (exec .vdim (at' (blockIn .validateDimensions 256 256))) = some (.decode, .none, 0x0000004A) := by
  decide
theorem test_vdim_all_bits :
    verdict (exec .vdim (at' (blockIn .validateDimensions 0x00010001 1))) =
      some (.failed, .invalidDimensions, 0x00000026) := by decide

/-- V5: the transposed pair, and the row that differs in a high bit only. -/
theorem test_cdim_transposed :
    (blockAfter (exec .cdim (at' (beforeCdim 2 4 4 2 [])))).map (fun b => (b.err, b.ew, b.eh, b.aw, b.ah)) =
      some (.dimensionMismatch, 2, 4, 4, 2) := by decide
theorem test_cdim_all_bits :
    verdict (exec .cdim (at' (beforeCdim 2 2 0x00010002 2 []))) = some (.failed, .dimensionMismatch, 0x00000026) := by decide

/-- V6, its first row: the length, and that the phase stays. -/
theorem test_alloc :
    (blockAfter (exec (.alloc true) (at' afterCdim1))).map (fun b => (b.outlen, b.dst.length, b.idx, b.phase)) =
      some (2, 2, 0, .pack) := by decide

/-- P7, trace A: the pixel `DE AD BE` gives the word `0xDD77`, stored `77 DD`. -/
theorem test_packpx : blockAfter (exec .packpx (at' afterAlloc1)) = some afterPackpx1 := by decide

/-- R122's example: `IDX == 1` and `SRC[3..5] == 00 FF 00`. -/
theorem test_packpx_second :
    (blockAfter (exec .packpx (at'
      { beforeCdim 2 1 2 1 [0xFF, 0, 0, 0x00, 0xFF, 0x00] with
        phase := .pack, outlen := 4, idx := 1, dst := Memory.ofBytes [0, 0xF8, 1, 1] }))).map
      (fun b => (b.dst, b.idx)) = some (Memory.ofBytes [0x00, 0xF8, 0xE0, 0x07], 2) := by decide

/-- R123: the sample buffer is released. -/
theorem test_finish :
    (blockAfter (exec .finish (at' afterPackpx1))).map (fun b => (b.phase, b.src, b.outlen, b.idx)) =
      some (.done, [], 2, 1) := by decide

/-- R190. -/
theorem test_reset : blockAfter (exec .reset (at' afterAlloc1)) = some Block.reset := by decide

/-- V7: `STATUS` in each phase. -/
theorem test_status :
    [statusWord .start .none, statusWord .validateDimensions .none, statusWord .decode .none, statusWord .checkDimensions .none,
      statusWord .pack .none, statusWord .done .none, statusWord .failed .dimensionMismatch,
      statusWord .failed .allocationFailure] =
      [0x00000000, 0x00000009, 0x0000004A, 0x0000000B, 0x0000000C, 0x00000015, 0x00000026, 0x000000A6] := by decide

/-- V1: words and serialised bytes of pixels with mixed channels. -/
theorem test_pack565_words :
    [pack565 0x12 0x34 0x56, pack565 0xAB 0xCD 0xEF, pack565 0xDE 0xAD 0xBE, pack565 0xCA 0xFE 0x42, pack565 0x80 0x80 0x80,
      pack565 0x00 0x1C 0x00, pack565 0x00 0xE0 0x00] =
      [0x11AA, 0xAE7D, 0xDD77, 0xCFE8, 0x8410, 0x00E0, 0x0700] := by decide
theorem test_le16 : le16 0x11AA = [0xAA, 0x11] := by decide

/-- V3: the row of a 3 by 2 image at which a model that takes `height` for `width` is caught. -/
theorem test_offsets : (pixelIndex 3 0 1, srcOff (pixelIndex 3 0 1), dstOff (pixelIndex 3 0 1)) = (3, 9, 6) := by decide

/-! ## Steps: turns of the agenda -/

/-- V8: a reserved word is taken and dropped. -/
theorem test_step_drops_reserved :
    blockAfter (step (startedWith [.arrival (.command 0x00000101)] [])) = some Block.reset := by decide
/-- R83: a misaligned access stops the step. -/
theorem test_step_refuses_misaligned :
    refusalOf (step (startedWith [.arrival (.readReg 0x05)] [])) = some (.misalignedRegisterAccess 5) := by decide
/-- The Engine's turn takes the Allocator's draw. -/
theorem test_step_alloc_takes_draw :
    (match step { State.reset with block := afterCdim1, env := { Env.reset with draws := [true, false] } } with
      | .next t => some (t.block.outlen, t.env.draws)
      | .fault _ => none
      | .refused _ => none) = some (2, [false]) := by decide

/-! ## The macro `decode_image` -/

/-- What a call of `decode_image` returned, if its run went through. -/
def resultOf : Host.Outcome (State × CallResult) Fault Refusal → Option CallResult
  | .next r => some r.2
  | .fault _ => none
  | .refused _ => none

/-- P7, trace A. -/
theorem test_decode_image :
    resultOf (decodeImage 1 1 (.response 0x10 1 1 [0xDE, 0xAD, 0xBE]) 1 [0] (startedWith [] [true])) =
      some (.packed [0x77, 0xDD]) := by decide
/-- The first poll finds the call still running, and the second, one turn of the Engine later, finds it done. -/
theorem test_decode_image_polls_again :
    resultOf (decodeImage 1 1 (.response 0x10 1 1 [0xDE, 0xAD, 0xBE]) 0 [0, 1] (startedWith [] [true])) =
      some (.packed [0x77, 0xDD]) := by decide
/-- The four dimension registers are read for kind 6 (P3) and for no other kind (P4). -/
theorem test_decode_image_mismatch :
    resultOf (decodeImage 1 1 (.response 0x10 1 2 [1, 2, 3, 4, 5, 6]) 1 [0] (startedWith [] [true])) =
      some (.error 6 [1, 1, 1, 2]) := by decide
theorem test_decode_image_truncated :
    resultOf (decodeImage 64 32 (.response 0x311 0 0 []) 1 [0] (startedWith [] [])) = some (.error 3 []) := by decide

/-! ## Witnesses: for every statement with hypotheses, inputs that meet them -/

/-- A state with a block, the bytes that were delivered and the Allocator's coming draws. -/
def serving (b : Block) (buf : List Byte) (draws : List Bool) : State :=
  { block := b, env := { Env.reset with draws := draws, delivered := buf } }

/-- The pixel of P7. -/
def pixel1 : List Byte := [0xDE, 0xAD, 0xBE]

theorem inv_before_vdim (p : Phase) (ew eh : Word) (e : Env) (hp : p = .start ∨ p = .validateDimensions) :
    MachineInv { block := blockIn p ew eh, env := e } := by
  refine ⟨⟨fun _ => ⟨rfl, rfl, rfl, rfl, rfl, rfl, rfl⟩, ?_, ?_, ?_, ?_, ?_, ?_, ?_, ?_, ?_, ?_, ?_⟩, rfl, rfl, ?_⟩ <;>
    rcases hp with rfl | rfl <;> simp [blockIn, Block.reset, phaseCode, errCode]

theorem inv_decode : MachineInv (serving (blockIn .decode 256 256) [] []) := by
  refine ⟨⟨?_, fun _ => ⟨?_, ⟨rfl, rfl, rfl, rfl, rfl, rfl, rfl⟩⟩, ?_, ?_, ?_, ?_, ?_, ?_, ?_, ?_, ?_, ?_⟩, rfl, rfl, ?_⟩ <;>
    simp [serving, blockIn, Block.reset, phaseCode, errCode, legalDims, legalDim]

theorem inv_check : MachineInv (serving (beforeCdim 1 1 1 1 pixel1) pixel1 [true]) := by
  refine ⟨⟨?_, ?_, fun _ => ⟨?_, rfl, rfl, rfl, rfl, rfl⟩, ?_, ?_, ?_, ?_, ?_, ?_, ?_, ?_, ?_⟩, rfl, rfl, fun _ => rfl⟩ <;>
    simp [serving, beforeCdim, blockIn, Block.reset, phaseCode, errCode, legalDims, legalDim]

theorem inv_afterCdim : MachineInv (serving afterCdim1 pixel1 [false]) := by
  refine ⟨⟨?_, ?_, ?_, fun _ => ⟨?_, rfl, rfl, rfl, rfl⟩, fun _ _ => ⟨rfl, rfl⟩, ?_, ?_, ?_, ?_, ?_, ?_, ?_⟩, rfl, rfl,
      fun _ => rfl⟩ <;>
    simp [serving, afterCdim1, beforeCdim, blockIn, Block.reset, phaseCode, errCode, legalDims, legalDim]

theorem inv_afterAlloc : MachineInv (serving afterAlloc1 pixel1 []) := by
  refine ⟨⟨?_, ?_, ?_, fun _ => ⟨?_, rfl, rfl, rfl, rfl⟩, ?_, fun _ _ => ⟨rfl, by decide, ?_⟩, ?_, ?_, ?_, ?_, ?_, ?_⟩, rfl, rfl,
      fun _ => rfl⟩ <;>
    simp [serving, afterAlloc1, afterCdim1, beforeCdim, blockIn, Block.reset, phaseCode, errCode, legalDims, legalDim,
      Memory.ofBytes, Memory.ofBytesFrom]

theorem inv_done : MachineInv (serving (exec .finish (at' afterPackpx1) |> blockAfter |>.getD Block.reset) pixel1 []) := by
  refine ⟨⟨?_, ?_, ?_, ?_, ?_, ?_, fun _ => ⟨?_, rfl, rfl, rfl, rfl, rfl, rfl, fun i hi => ?_⟩, ?_, ?_, ?_, ?_, ?_⟩, rfl, rfl, ?_⟩
  case refine_8 =>
    obtain rfl : i = 0 := by
      have : i < 1 := hi
      omega
    exact ⟨0xDE, 0xAD, 0xBE, by decide, by decide⟩
  all_goals simp [serving, exec, execFinish, blockAfter, at', Block.pixels, afterPackpx1, afterAlloc1, afterCdim1, beforeCdim,
    blockIn, State.reset, Block.reset, phaseCode, errCode, legalDims, legalDim, State.withBlock, Memory.ofBytes,
    Memory.ofBytesFrom]

/-- A state with turns to come. -/
def facing (b : Block) (turns : List Turn) : State := { block := b, env := { Env.reset with agenda := turns } }

/-- Failed, as `VDIM` leaves it. -/
def failed1 : Block := { blockIn .failed 257 1 with err := .invalidDimensions }

theorem witness_ResetEventRestoresEveryItem :
    (∃ u v, u.block.phase = .done ∧ exec .release u = .next v) ∧ (∃ u v, u.block.phase = .failed ∧ exec .release u = .next v) ∧
    ∃ s : State, s.block = State.reset.block ∧ s.env.agenda = [] :=
  ⟨⟨at' doneP1, _, rfl, rfl⟩, ⟨at' failed1, _, rfl, rfl⟩, State.reset, rfl, rfl⟩

theorem witness_ResetDuringACallAbandonsIt :
    pixel1.length = 3 * (1 : Word).toNat * (1 : Word).toNat ∧ ([] : List Byte).length = 3 * (0 : Word).toNat * (5 : Word).toNat := by
  decide

theorem witness_ErrorEntryWritesSixItems :
    ∃ s t, MachineInv s ∧ exec .vdim s = .next t ∧ s.block.phase ≠ .failed ∧ t.block.phase = .failed :=
  ⟨_, _, inv_before_vdim .validateDimensions 257 1 Env.reset (.inr rfl), rfl, by decide, rfl⟩

/-- Every kind is raised from some state; `ALLOC` denied needs `ALLOC_CAN_FAIL`, which is open. -/
theorem witness_EachErrorKindHasItsRaisers :
    verdict (exec .vdim (at' (blockIn .validateDimensions 0 1))) = some (.failed, .invalidDimensions, 0x26) ∧
    (∀ r, (verdict (exec (.decErr r) (at' (blockIn .decode 1 1)))).map (·.1) = some .failed) ∧
    verdict (exec .decNomem (at' (blockIn .decode 1 1))) = some (.failed, .allocationFailure, 0xA6) ∧
    verdict (exec .cdim (at' (beforeCdim 1 1 1 2 []))) = some (.failed, .dimensionMismatch, 0x26) :=
  ⟨by decide, fun r => by cases r <;> decide, by decide, by decide⟩

theorem witness_FailedIsLeftOnlyByReleaseOrReset :
    (∃ t, exec .nop (at' failed1) = .next t) ∧ (∃ t, exec .release (at' failed1) = .next t) ∧
    (∃ t, exec (.regwr 0 2) (at' failed1) = .next t) ∧ (∃ t, exec .decNomem (at' failed1) = .next t) ∧
    (at' failed1).block.phase = .failed :=
  ⟨⟨_, rfl⟩, ⟨_, rfl⟩, ⟨_, rfl⟩, ⟨_, rfl⟩, rfl⟩

theorem witness_ProcessStartsACall :
    (State.reset.block.phase = .start ∧ ∃ t, exec .process State.reset = .next t) ∧
    ((at' (blockIn .decode 1 1)).block.phase ≠ .start ∧
      ∃ t, exec .decNomem (at' (blockIn .decode 1 1)) = .next t ∧ t.block.phase ≠ .start) :=
  ⟨⟨rfl, _, rfl⟩, by decide, _, rfl, by simp⟩

theorem witness_ReleaseRestoresTheResetState :
    (∃ t, (at' doneP1).block.phase = .done ∧ exec .release (at' doneP1) = .next t) ∧
    (∃ t, (at' failed1).block.phase = .failed ∧ exec .release (at' failed1) = .next t) ∧
    State.reset.block.phase ≠ .done ∧ State.reset.block.phase ≠ .failed :=
  ⟨⟨_, rfl, rfl⟩, ⟨_, rfl, rfl⟩, by decide, by decide⟩

theorem witness_RegrdReturnsTheRegisterMap :
    ∀ off ∈ [0x00, 0x04, 0x08, 0x0C, 0x10, 0x14, 0x18, 0x1C, 0x20, 0x24], off % 4 = 0 := by decide

theorem witness_RegwrWritesOnlyWhatTheHostMayWrite :
    State.reset.block.phase = .start ∧ (at' doneP1).block.phase ≠ .start ∧ (3 : Word) ≠ 0 ∧ (3 : Word) ≠ 1 ∧ (3 : Word) ≠ 2 ∧
    ∀ off ∈ [0x04, 0x08, 0x14, 0x18, 0x1C, 0x20, 0x24], off % 4 = 0 ∧ off ≠ 0x00 ∧ off ≠ 0x0C ∧ off ≠ 0x10 := by decide

theorem witness_DstrdReadsOneByteInDone :
    (∀ off ∈ [0, 7], (at' doneP1).block.phase = .done ∧ off < (at' doneP1).block.outlen.toNat ∧
      Memory.wf (at' doneP1).block.dst ∧ (at' doneP1).block.dst.length = (at' doneP1).block.outlen.toNat) ∧
    ¬((at' doneP1).block.phase = .done ∧ 8 < (at' doneP1).block.outlen.toNat) ∧
    ¬((at' afterPackpx1).block.phase = .done ∧ 0 < (at' afterPackpx1).block.outlen.toNat) := by decide

theorem witness_MisalignedRegisterAccessIsRefused :
    (∀ off ∈ [1, 2, 3, 0x0D], off % 4 ≠ 0) ∧
    (facing Block.reset [.arrival (.readReg 1)]).env.agenda = .arrival (.readReg 1) :: [] ∧
    (facing Block.reset [.arrival (.writeReg 0x0D 5)]).env.agenda = .arrival (.writeReg 0x0D 5) :: [] := by decide

theorem witness_StatusIsAViewOfPhaseAndErr : ∃ t, exec (.regrd 0x04) State.reset = .next t := ⟨_, rfl⟩

theorem witness_DecOkDeliversTheImage :
    (at' (blockIn .decode 1 1)).block.phase = .decode ∧ pixel1.length = 3 * (1 : Word).toNat * (1 : Word).toNat ∧
    ([] : List Byte).length = 3 * (0 : Word).toNat * (0xFFFFFFFF : Word).toNat := by decide

theorem witness_DecErrPropagatesTheReason :
    (at' (blockIn .decode 1 1)).block.phase = .decode ∧
    ∀ f ∈ [0#4, 1#4, 6#4, 15#4], f.toNat < 2 ∨ 5 < f.toNat := by decide

theorem witness_DecNomemRaisesAllocationFailure : (at' (blockIn .decode 1 1)).block.phase = .decode := rfl

theorem witness_DecOkOfTheWrongLengthIsRefused :
    (at' (blockIn .decode 1 1)).block.phase = .decode ∧
    (∀ buf ∈ [[0xDE, 0xAD], [0xDE, 0xAD, 0xBE, 0xEF]], (buf : List Byte).length ≠ 3 * (1 : Word).toNat * (1 : Word).toNat) ∧
    legalDims (at' (blockIn .decode 1 1)).block :=
  ⟨rfl, by decide, by simp [legalDims, legalDim, at', blockIn]⟩

theorem witness_DecOkOutsideDecodeIsDroppedWhateverItsLength :
    State.reset.block.phase ≠ .decode ∧ (at' (beforeCdim 1 1 1 1 pixel1)).block.phase ≠ .decode := by decide

/-- At the ends of the legal range and just outside them. -/
theorem witness_VdimChecksTheRange :
    (∀ v ∈ [(1 : Word), 256], 1 ≤ v.toNat ∧ v.toNat ≤ 256) ∧
    (∀ v ∈ [(0 : Word), 257, 0x80000000], ¬(1 ≤ v.toNat ∧ v.toNat ≤ 256)) ∧
    (at' (blockIn .validateDimensions 256 1)).block.phase = .validateDimensions :=
  ⟨by simp, by simp, rfl⟩

theorem witness_CdimComparesTheDimensions :
    (at' (beforeCdim 2 4 2 4 [])).block.phase = .checkDimensions ∧
    ((at' (beforeCdim 2 4 2 4 [])).block.aw = (at' (beforeCdim 2 4 2 4 [])).block.ew ∧
      (at' (beforeCdim 2 4 2 4 [])).block.ah = (at' (beforeCdim 2 4 2 4 [])).block.eh) ∧
    (at' (beforeCdim 2 2 3 2 [])).block.aw ≠ (at' (beforeCdim 2 2 3 2 [])).block.ew ∧
    (at' (beforeCdim 2 2 2 3 [])).block.ah ≠ (at' (beforeCdim 2 2 2 3 [])).block.eh := by decide

theorem witness_AllocObtainsTheBuffer :
    (at' afterCdim1).block.phase = .pack ∧ (at' afterCdim1).block.outlen = 0 ∧ legalDims (at' afterCdim1).block :=
  ⟨rfl, rfl, by simp [legalDims, legalDim, at', afterCdim1, beforeCdim, blockIn]⟩

theorem witness_PackpxConvertsOnePixel :
    (at' afterAlloc1).block.phase = .pack ∧ (at' afterAlloc1).block.outlen ≠ 0 ∧
    (at' afterAlloc1).block.idx.toNat < (at' afterAlloc1).block.pixels ∧ legalDims (at' afterAlloc1).block ∧
    Memory.wf (at' afterAlloc1).block.src ∧ (at' afterAlloc1).block.src.length = 3 * (at' afterAlloc1).block.pixels ∧
    Memory.wf (at' afterAlloc1).block.dst ∧ (at' afterAlloc1).block.dst.length = (at' afterAlloc1).block.outlen.toNat ∧
    (at' afterAlloc1).block.outlen.toNat = 2 * (at' afterAlloc1).block.pixels :=
  ⟨rfl, by decide, by decide, by simp [legalDims, legalDim, at', afterAlloc1, afterCdim1, beforeCdim, blockIn], rfl, rfl, rfl,
    rfl, rfl⟩

theorem witness_FinishReleasesTheImage :
    (at' afterPackpx1).block.phase = .pack ∧ (at' afterPackpx1).block.outlen ≠ 0 ∧
    (at' afterPackpx1).block.idx.toNat = (at' afterPackpx1).block.pixels := by decide

theorem witness_EngineOperationsOnlyWhereEnabled :
    State.reset.block.phase ≠ .validateDimensions ∧ State.reset.block.phase ≠ .checkDimensions ∧
    ¬((at' afterAlloc1).block.phase = .pack ∧ (at' afterAlloc1).block.outlen = 0) ∧
    ¬((at' afterPackpx1).block.phase = .pack ∧ (at' afterPackpx1).block.outlen ≠ 0 ∧
      (at' afterPackpx1).block.idx.toNat < (at' afterPackpx1).block.pixels) ∧
    ¬((at' afterAlloc1).block.phase = .pack ∧ (at' afterAlloc1).block.outlen ≠ 0 ∧
      (at' afterAlloc1).block.idx.toNat = (at' afterAlloc1).block.pixels) := by decide

theorem witness_RangeTestIsTheSameSignedAndUnsigned :
    (0x80000000 : Word).toInt < 0 ∧ (0xFFFFFFFF : Word).toInt < 0 := by decide

theorem witness_Pack565FormsAgree :
    (0x07 : Byte).toNat ≤ (0x08 : Byte).toNat ∧ (0x03 : Byte).toNat ≤ (0x04 : Byte).toNat := by decide

theorem witness_PixelIndexIsABijection :
    (0 < 1 ∧ 0 < 1) ∧ (255 < 256 ∧ 255 < 256) ∧ pixelIndex 256 255 255 = 65535 ∧ 65535 < 256 * 256 ∧
    (2 < 3 ∧ pixelIndex 3 2 1 = pixelIndex 3 2 1) := by decide

theorem witness_ControlArithmeticFits :
    legalDims (blockIn .pack 1 1) ∧ legalDims (blockIn .pack 256 256) ∧
    (blockIn .pack 256 256).idx.toNat < (blockIn .pack 256 256).pixels ∧
    (65535#17).toNat < (blockIn .pack 256 256).pixels := by
  refine ⟨?_, ?_, ?_, ?_⟩ <;> simp [legalDims, legalDim, blockIn, Block.pixels, Block.reset]

theorem witness_CommandWordsAreThreeOfThem :
    ∀ w ∈ [(3 : Word), 0x00000101, 0xFFFFFFFF], w ≠ 0x00000000#32 ∧ w ≠ 0x00000001#32 ∧ w ≠ 0x00000002#32 := by simp

theorem witness_ResponseWordsAreSixOfThem :
    ∀ w0 ∈ [(0x111 : Word), 0x611, 0x112, 0x11, 0x13, 0],
      w0 ≠ 0x00000010#32 ∧ w0 ≠ 0x00000211#32 ∧ w0 ≠ 0x00000311#32 ∧ w0 ≠ 0x00000411#32 ∧ w0 ≠ 0x00000511#32 ∧
      w0 ≠ 0x00000012#32 := by simp

/-- A block for each row of the selection, the last past its end, which no run reaches. -/
theorem witness_EngineSelectionByState :
    (blockIn .validateDimensions 1 1).phase = .validateDimensions ∧ (beforeCdim 1 1 1 1 pixel1).phase = .checkDimensions ∧
    (afterCdim1.phase = .pack ∧ afterCdim1.outlen = 0) ∧
    (afterAlloc1.phase = .pack ∧ afterAlloc1.outlen ≠ 0 ∧ afterAlloc1.idx.toNat < afterAlloc1.pixels) ∧
    (afterPackpx1.phase = .pack ∧ afterPackpx1.outlen ≠ 0 ∧ afterPackpx1.idx.toNat = afterPackpx1.pixels) ∧
    (∃ b : Block, b.phase = .pack ∧ b.outlen ≠ 0 ∧ b.pixels < b.idx.toNat) ∧ ¬enginePhase Block.reset.phase :=
  ⟨rfl, rfl, by decide, by decide, by decide, ⟨{ afterPackpx1 with idx := 2 }, by decide⟩, by simp [enginePhase, Block.reset]⟩

theorem witness_DecodeAndEncodeAgree :
    (Instr.decOk 1 1 pixel1).wellFormed = true ∧ (Instr.decOk 0 0xFFFFFFFF []).wellFormed = true ∧
    (Instr.regrd 0x20).wellFormed = true ∧ (Instr.regwr 0 0xFFFFFFFF).wellFormed = true ∧
    decode (.arrival (.response 0x00000012#32 7 7 pixel1)) = .ok .decNomem ∧
    decode (.arrival (.command 2)) = .ok .release := by decide

theorem witness_StepPerformsTheArrival :
    (facing Block.reset [.arrival (.command 1)]).env.agenda = .arrival (.command 1) :: [] ∧
    decode (.arrival (.command 1)) = .ok .process ∧
    decode (.arrival (.command 3)) = .reject (.reservedCommand 3) ∧
    decode (.arrival (.response 0x111 0 0 [])) = .reject (.reservedResponse 0x111) ∧
    decode (.arrival (.writeReg 2 0)) = .reject (.misaligned 2) := by decide

theorem witness_StepPerformsTheEnginesOperation :
    ((at' afterAlloc1).env.agenda = [] ∧ (facing afterAlloc1 [.engine]).env.agenda = .engine :: []) ∧
    decode (.select (selectorOf afterAlloc1) false) = .ok .packpx ∧
    (afterCdim1.phase = .pack ∧ afterCdim1.outlen = 0 ∧ (serving afterCdim1 pixel1 [false]).env.draws = false :: [] ∧
      (at' afterCdim1).env.draws = []) ∧
    decode (.select (selectorOf Block.reset) false) = .reject .noOperation := by decide

theorem witness_ReservedAndUntimelyInputsAreDropped :
    (facing Block.reset [.arrival (.command 3)]).env.agenda = .arrival (.command 3) :: [] ∧
    (facing (blockIn .decode 1 1) [.arrival (.response 0x611 0 0 [])]).env.agenda = .arrival (.response 0x611 0 0 []) :: [] ∧
    afterAlloc1.phase ≠ .start ∧ afterAlloc1.phase ≠ .done ∧ afterAlloc1.phase ≠ .failed ∧ afterAlloc1.phase ≠ .decode ∧
    pixel1.length = 3 * (1 : Word).toNat * (1 : Word).toNat := by decide

theorem witness_HostCannotDisturbARunningCall :
    ∃ t, busyBit (at' afterAlloc1).block.phase = true ∧ hostOp (.regwr 0x0C 5) ∧
      exec (.regwr 0x0C 5) (at' afterAlloc1) = .next t :=
  ⟨_, rfl, trivial, rfl⟩

theorem witness_OnlyTheAllowedAgentWrites :
    (∃ s t, MachineInv s ∧ s.block.phase = .done ∧ exec .release s = .next t) ∧
    (∃ t, MachineInv (serving (beforeCdim 1 1 1 1 pixel1) pixel1 [true]) ∧
      exec .cdim (serving (beforeCdim 1 1 1 1 pixel1) pixel1 [true]) = .next t) ∧
    ∃ t, MachineInv (serving (blockIn .decode 256 256) [] []) ∧
      exec .decNomem (serving (blockIn .decode 256 256) [] []) = .next t :=
  ⟨⟨_, _, inv_done, rfl, rfl⟩, ⟨_, inv_check, rfl⟩, _, inv_decode, rfl⟩

theorem witness_PhaseMovesAlongTheGraph :
    (∃ t, exec .packpx (at' afterAlloc1) = .next t ∧ afterAlloc1.phase = .pack ∧ t.block.phase = .pack) ∧
    (∃ t, exec (.alloc true) (at' afterCdim1) = .next t ∧ afterCdim1.phase = .pack ∧ t.block.phase = .pack) ∧
    ∃ t, exec .finish (at' afterPackpx1) = .next t :=
  ⟨⟨_, rfl, rfl, rfl⟩, ⟨_, rfl, rfl, rfl⟩, _, rfl⟩

theorem witness_DecodeIsLeftOnlyByAResponseOrReset :
    (∃ t, exec .vdim (at' (blockIn .validateDimensions 1 256)) = .next t ∧ t.block.phase = .decode) ∧
    ((at' (blockIn .decode 1 1)).block.phase = .decode ∧ (at' (blockIn .decode 1 1)).env.agenda = []) ∧
    (∃ t, exec .decNomem (at' (blockIn .decode 1 1)) = .next t ∧ t.block ≠ (at' (blockIn .decode 1 1)).block) ∧
    (∃ t, exec (.decOk 1 1 pixel1) (at' (blockIn .decode 1 1)) = .next t) ∧
    State.reset.block.phase ≠ .decode ∧ pixel1.length = 3 * (1 : Word).toNat * (1 : Word).toNat :=
  ⟨⟨_, rfl, rfl⟩, by decide, ⟨_, rfl, by decide⟩, ⟨_, rfl⟩, by decide, by decide⟩

theorem witness_InvalidDimensionsBeforeAnyWork :
    (∃ s : State, MachineInv s ∧ s.block.phase = .start ∧ s.env.agenda = [.arrival (.command 1)] ∧ ¬legalDims s.block) ∧
    ∃ s : State, MachineInv s ∧ s.block.phase = .validateDimensions :=
  ⟨⟨_, inv_before_vdim .start 257 1 { Env.reset with agenda := [.arrival (.command 1)] } (.inl rfl), rfl, rfl,
    by simp [legalDims, legalDim, blockIn]⟩, _, inv_before_vdim .validateDimensions 0 1 Env.reset (.inr rfl), rfl⟩

theorem witness_StepKeepsTheCanonicalForm :
    ∃ t, Memory.wf (at' afterAlloc1).block.src ∧ Memory.wf (at' afterAlloc1).block.dst ∧ step (at' afterAlloc1) = .next t :=
  ⟨_, rfl, rfl, rfl⟩

theorem witness_EveryStepKeepsTheInvariant :
    ∃ t, MachineInv (serving afterAlloc1 pixel1 []) ∧ step (serving afterAlloc1 pixel1 []) = .next t :=
  ⟨_, inv_afterAlloc, rfl⟩

/-- The call of P7 up to `Done`, from reset. -/
theorem witness_InvariantsHoldInEveryReachedState :
    Reached State.reset ∧ ∃ s, Reached s ∧ s.block.phase = .done :=
  ⟨⟨[], [], 0, rfl⟩, _, ⟨decodeImageTurns 1 1 (.response 0x10 1 1 pixel1) 1, [true], 9, rfl⟩, rfl⟩

theorem witness_NoStepFaultsUnderTheInvariant :
    (MachineInv (serving afterAlloc1 pixel1 []) ∧ (serving afterAlloc1 pixel1 []).block.phase = .pack ∧
      (serving afterAlloc1 pixel1 []).block.outlen ≠ 0 ∧
      (serving afterAlloc1 pixel1 []).block.idx.toNat < (serving afterAlloc1 pixel1 []).block.pixels) ∧
    ∃ s r, MachineInv s ∧ step s = .refused r :=
  ⟨⟨inv_afterAlloc, rfl, by decide, by decide⟩, _, _,
    inv_before_vdim .start 0 0 { Env.reset with agenda := [.arrival (.readReg 5)] } (.inl rfl), rfl⟩

theorem witness_PackerProducesThePackedImage :
    MachineInv (serving (beforeCdim 1 1 1 1 pixel1) pixel1 [true]) ∧
    (beforeCdim 1 1 1 1 pixel1).phase = .checkDimensions ∧
    (serving (beforeCdim 1 1 1 1 pixel1) pixel1 [true]).env.agenda = [] ∧
    (serving (beforeCdim 1 1 1 1 pixel1) pixel1 [true]).env.draws = true :: [] ∧
    0 < (beforeCdim 1 1 1 1 pixel1).ew.toNat ∧ 0 < (beforeCdim 1 1 1 1 pixel1).eh.toNat :=
  ⟨inv_check, rfl, rfl, rfl, by decide, by decide⟩

/-- Two machines that differ in everything but the call: how many `ALLOC`s came before, and the draws after this one. -/
theorem witness_PackerIsPure :
    ∃ s₁ s₂ t₁ t₂ : State, MachineInv s₁ ∧ MachineInv s₂ ∧ s₁.block.phase = .checkDimensions ∧ s₁.block = s₂.block ∧
      s₁.block.aw = s₁.block.ew ∧ s₁.block.ah = s₁.block.eh ∧ s₁.env.allocCount ≠ s₂.env.allocCount ∧
      s₁.env.agenda = [] ∧ s₂.env.agenda = [] ∧ s₁.env.draws = true :: [] ∧ s₂.env.draws = true :: [false] ∧
      run (s₁.block.ew.toNat * s₁.block.eh.toNat + 3) s₁ = .next t₁ ∧
      run (s₂.block.ew.toNat * s₂.block.eh.toNat + 3) s₂ = .next t₂ := by
  refine ⟨serving (beforeCdim 1 1 1 1 pixel1) pixel1 [true],
    { block := beforeCdim 1 1 1 1 pixel1
      env := { Env.reset with draws := [true, false], delivered := pixel1, allocCount := 7 } },
    _, _, inv_check, ?_, rfl, rfl, rfl, rfl, by decide, rfl, rfl, rfl, rfl, rfl, rfl⟩
  obtain ⟨h1, h2, h3, h4⟩ := inv_check
  exact ⟨h1, h2, h3, h4⟩

theorem witness_CallEndsWithinTheStepBound :
    (Rule27 (beforeCdim 1 1 1 1 pixel1) pixel1 ∧ enginePhase (beforeCdim 1 1 1 1 pixel1).phase) ∧
    (Rule27 afterCdim1 pixel1 ∧ enginePhase afterCdim1.phase) ∧ (Rule27 afterAlloc1 pixel1 ∧ enginePhase afterAlloc1.phase) ∧
    (serving (beforeCdim 1 1 1 1 pixel1) pixel1 [true]).env.agenda = [] :=
  ⟨⟨inv_check.rule27, .inr (.inl rfl)⟩, ⟨inv_afterCdim.rule27, .inr (.inr rfl)⟩, ⟨inv_afterAlloc.rule27, .inr (.inr rfl)⟩, rfl⟩

theorem witness_WholeCallFromReset :
    (legalDim 1 ∧ pixel1.length = 3 * (1 : Word).toNat * (1 : Word).toNat) ∧
    (legalDim 256 ∧ (List.replicate 196608 (0 : Byte)).length = 3 * (256 : Word).toNat * (256 : Word).toNat) := by
  refine ⟨⟨by simp [legalDim], rfl⟩, by simp [legalDim], by rw [List.length_replicate]; rfl⟩

/-- Each path of `decode_image` has its inputs. -/
theorem witness_DecodeImageReturnsItsResult :
    (startedWith [] [true]).block = State.reset.block ∧ (startedWith [] [true]).env.agenda = [] ∧
    (startedWith [] [true]).env.draws = true :: [] ∧ (startedWith [] [false]).env.draws = false :: [] ∧
    (legalDim 1 ∧ legalDim 256) ∧ pixel1.length = 3 * (1 : Word).toNat * (1 : Word).toNat ∧
    (([] : List Byte).length = 3 * (0 : Word).toNat * (1 : Word).toNat ∧ (0 : Word) ≠ 1) ∧
    ¬(legalDim 257 ∧ legalDim 1) ∧ ¬(legalDim 1 ∧ legalDim 0) := by
  refine ⟨rfl, rfl, rfl, rfl, ⟨?_, ?_⟩, rfl, by decide, ?_, ?_⟩ <;> simp [legalDim]

end Sys2Proof.Tests
end

/-! PROOF. When each operation is refused and why; then R8: an Engine operation is refused exactly where it is not enabled,
and no step performs one there. -/

namespace Sys2Proof.Machine

variable {s : State} {r : Refusal}

/-! ## Outcomes and refusals -/

theorem next_ne_refused {t : State} : (.next t : Host.Outcome State Fault Refusal) ≠ .refused r := nofun

theorem fault_ne_refused {f : Fault} : (.fault f : Host.Outcome State Fault Refusal) ≠ .refused r := nofun

theorem drop_ne_refused : drop s ≠ .refused r := next_ne_refused

theorem raiseError_ne_refused {k : ErrKind} : raiseError k s ≠ .refused r := next_ne_refused

/-- An operation that is refused outside its condition, and never inside it. -/
theorem guarded_refused {p : Prop} [Decidable p] {o : Host.Outcome State Fault Refusal} {why : Refusal}
    (inside : o ≠ .refused r) : (if p then o else .refused why) = .refused r ↔ ¬p ∧ r = why := by
  by_cases hp : p
  · simp [hp, inside]
  · simp [hp, eq_comm]

/-! ## Operations that no state refuses -/

theorem execProcess_ne_refused : execProcess s ≠ .refused r := by
  unfold execProcess
  split
  · exact next_ne_refused
  · exact drop_ne_refused

theorem execRelease_ne_refused : execRelease s ≠ .refused r := by
  unfold execRelease
  split
  · exact next_ne_refused
  · exact drop_ne_refused

theorem issueCommand_ne_refused {v : Word} : issueCommand v s ≠ .refused r := by
  unfold issueCommand
  split
  · exact drop_ne_refused
  · exact execProcess_ne_refused
  · exact execRelease_ne_refused
  · exact drop_ne_refused

theorem execDecErr_ne_refused {reason : DecodeReason} : execDecErr reason s ≠ .refused r := by
  unfold execDecErr
  split
  · exact raiseError_ne_refused
  · exact drop_ne_refused

theorem execDecNomem_ne_refused : execDecNomem s ≠ .refused r := by
  unfold execDecNomem
  split
  · exact raiseError_ne_refused
  · exact drop_ne_refused

/-! ## Refused inputs of the Host and the Decoder -/

theorem execRegrd_refused {off : Nat} :
    execRegrd off s = .refused r ↔ ¬off % 4 = 0 ∧ r = .misalignedRegisterAccess off :=
  guarded_refused next_ne_refused

theorem execRegwr_refused {off : Nat} {v : Word} :
    execRegwr off v s = .refused r ↔ ¬off % 4 = 0 ∧ r = .misalignedRegisterAccess off := by
  refine guarded_refused ?_
  split_ifs
  · exact issueCommand_ne_refused
  · exact next_ne_refused
  · exact next_ne_refused
  · exact drop_ne_refused

theorem execDstrd_refused {off : Nat} :
    execDstrd off s = .refused r ↔
      ¬(s.block.phase = .done ∧ off < s.block.outlen.toNat) ∧ r = .dstReadNotAdmitted off := by
  refine guarded_refused ?_
  split
  · exact next_ne_refused
  · exact fault_ne_refused

theorem execDecOk_refused {aw ah : Word} {buf : List Byte} :
    execDecOk aw ah buf s = .refused r ↔
      s.block.phase = .decode ∧ ¬buf.length = 3 * aw.toNat * ah.toNat ∧ r = .decoderBufferLength := by
  unfold execDecOk
  split
  · rename_i hp
    rw [guarded_refused next_ne_refused]
    simp [hp]
  · rename_i hp
    simp [hp, drop_ne_refused]

/-! ## The Engine's operations, refused exactly where they are not enabled -/

theorem execVdim_refused :
    execVdim s = .refused r ↔ ¬s.block.phase = .validateDimensions ∧ r = .engineNotEnabled := by
  refine guarded_refused ?_
  split
  · exact next_ne_refused
  · exact raiseError_ne_refused

theorem execCdim_refused :
    execCdim s = .refused r ↔ ¬s.block.phase = .checkDimensions ∧ r = .engineNotEnabled := by
  refine guarded_refused ?_
  split
  · exact next_ne_refused
  · exact raiseError_ne_refused

theorem execAlloc_refused {allocOk : Bool} :
    execAlloc allocOk s = .refused r ↔
      ¬(s.block.phase = .pack ∧ s.block.outlen = 0) ∧ r = .engineNotEnabled := by
  refine guarded_refused ?_
  split
  · split
    · exact next_ne_refused
    · exact fault_ne_refused
  · exact raiseError_ne_refused

theorem execPackpx_refused :
    execPackpx s = .refused r ↔
      ¬(s.block.phase = .pack ∧ s.block.outlen ≠ 0 ∧ s.block.idx.toNat < s.block.pixels) ∧
        r = .engineNotEnabled := by
  refine guarded_refused ?_
  split
  · split
    · split
      · exact next_ne_refused
      · exact fault_ne_refused
    · exact fault_ne_refused
  · exact fault_ne_refused

theorem execFinish_refused :
    execFinish s = .refused r ↔
      ¬(s.block.phase = .pack ∧ s.block.outlen ≠ 0 ∧ s.block.idx.toNat = s.block.pixels) ∧
        r = .engineNotEnabled :=
  guarded_refused next_ne_refused

/-! ## R8 for the step -/

/-- Where R84 enables an Engine operation; the operations of the other agents are under no condition here. -/
def EngineEnabled (b : Block) : Instr → Prop
  | .vdim => b.phase = .validateDimensions
  | .cdim => b.phase = .checkDimensions
  | .alloc _ => b.phase = .pack ∧ b.outlen = 0
  | .packpx => b.phase = .pack ∧ b.outlen ≠ 0 ∧ b.idx.toNat < b.pixels
  | .finish => b.phase = .pack ∧ b.outlen ≠ 0 ∧ b.idx.toNat = b.pixels
  | _ => True

/-- `engineNotEnabled` is the answer to an Engine operation that is not enabled, and to nothing else (log 11). -/
theorem exec_engineNotEnabled {i : Instr} :
    exec i s = .refused .engineNotEnabled ↔ ¬EngineEnabled s.block i := by
  cases i with
  | nop => simp [exec, EngineEnabled, execNop, drop_ne_refused]
  | process => simp [exec, EngineEnabled, execProcess_ne_refused]
  | release => simp [exec, EngineEnabled, execRelease_ne_refused]
  | regrd off => simp [exec, EngineEnabled, execRegrd_refused]
  | regwr off v => simp [exec, EngineEnabled, execRegwr_refused]
  | dstrd off => simp [exec, EngineEnabled, execDstrd_refused]
  | decOk aw ah buf => simp [exec, EngineEnabled, execDecOk_refused]
  | decErr reason => simp [exec, EngineEnabled, execDecErr_ne_refused]
  | decNomem => simp [exec, EngineEnabled, execDecNomem_ne_refused]
  | vdim => simp [exec, EngineEnabled, execVdim_refused]
  | cdim => simp [exec, EngineEnabled, execCdim_refused]
  | alloc allocOk => simp [exec, EngineEnabled, execAlloc_refused]
  | packpx => simp [exec, EngineEnabled, execPackpx_refused]
  | finish => simp [exec, EngineEnabled, execFinish_refused]
  | reset => simp [exec, EngineEnabled, execReset]

/-- No door gives an agent one of the Engine's operations (R70, R84). -/
theorem decode_arrival_not_engineOp {a : Arrival} {i : Instr} (h : decode (.arrival a) = .ok i) : ¬engineOp i := by
  cases a with
  | command w =>
    simp only [decode, decodeArrival] at h
    split at h
    · rename_i c hc
      cases c <;> cases h <;> exact id
    · cases h
  | response w0 w1 w2 buf =>
    simp only [decode, decodeArrival, decodeResponse] at h
    split_ifs at h
    · cases h
      exact id
    · split at h <;> cases h
      exact id
    · cases h
      exact id
  | readReg off =>
    simp only [decode, decodeArrival] at h
    split_ifs at h
    cases h
    exact id
  | writeReg off v =>
    simp only [decode, decodeArrival] at h
    split_ifs at h
    cases h
    exact id
  | readDst off =>
    cases h
    exact id
  | resetLine =>
    cases h
    exact id

/-- The condition of `EngineEnabled` is on the Engine's operations only. -/
theorem engineEnabled_of_not_engineOp {b : Block} {i : Instr} (h : ¬engineOp i) : EngineEnabled b i := by
  cases i <;> simp_all [EngineEnabled, engineOp]

/-- The Engine's selecting state selects only what is enabled (R84). -/
theorem engineEnabled_of_selected {b : Block} {allocOk : Bool} {i : Instr}
    (h : decode (.select (selectorOf b) allocOk) = .ok i) : EngineEnabled b i := by
  obtain ⟨hp, rfl⟩ | ⟨hp, rfl⟩ | ⟨hp, ho, rfl⟩ | ⟨hp, ho, hi, rfl⟩ | ⟨hp, ho, hi, rfl⟩ := selected_cases h
  · exact hp
  · exact hp
  · exact ⟨hp, ho⟩
  · exact ⟨hp, ho, hi⟩
  · exact ⟨hp, ho, hi⟩

/-- What a step performs is enabled, whoever has the turn (R8). -/
theorem engineEnabled_of_fetched {i : Instr} (h : decode (fetch s).1 = .ok i) : EngineEnabled (fetch s).2.block i := by
  obtain ⟨a, rest, -, hm⟩ | ⟨allocOk, hm⟩ := fetch_message s
  · rw [hm] at h
    exact engineEnabled_of_not_engineOp (decode_arrival_not_engineOp h)
  · rw [hm] at h
    rw [(fetch_keeps s).1]
    exact engineEnabled_of_selected h

theorem onReject_ne_engineNotEnabled {reject : Reject} : onReject reject s ≠ .refused .engineNotEnabled := by
  cases reject <;> simp [onReject, drop_ne_refused]

theorem step_ne_engineNotEnabled (s : State) : step s ≠ .refused .engineNotEnabled := by
  unfold step
  split
  · rename_i i hi
    exact fun h => exec_engineNotEnabled.mp h (engineEnabled_of_fetched hi)
  · exact onReject_ne_engineNotEnabled

/-- Settles O27: `exec` refuses what is not enabled, and what a step takes is always enabled. -/
theorem engineOperationsOnlyWhereEnabled : Obligations.EngineOperationsOnlyWhereEnabled :=
  fun s => ⟨fun h => execVdim_refused.mpr ⟨h, rfl⟩, fun h => execCdim_refused.mpr ⟨h, rfl⟩,
    fun _ h => execAlloc_refused.mpr ⟨h, rfl⟩, fun h => execPackpx_refused.mpr ⟨h, rfl⟩,
    fun h => execFinish_refused.mpr ⟨h, rfl⟩, step_ne_engineNotEnabled s⟩

end Sys2Proof.Machine

/-! PROOF. A step at an arrival, by the outcome of decoding it (R7, R78, R87). -/

namespace Sys2Proof.Machine

variable {s : State} {a : Arrival} {rest : List Turn}

theorem step_arrival_of_ok {i : Instr} (h : s.env.agenda = .arrival a :: rest) (hd : decode (.arrival a) = .ok i) :
    step s = exec i (s.withAgenda rest) := by
  rw [step_arrival h, hd]

theorem step_arrival_of_reject {r : Reject} (h : s.env.agenda = .arrival a :: rest)
    (hd : decode (.arrival a) = .reject r) : step s = onReject r (s.withAgenda rest) := by
  rw [step_arrival h, hd]

/-- Settles O43, by the outcome of decoding the arrival. -/
theorem stepPerformsTheArrival : Obligations.StepPerformsTheArrival :=
  fun _ _ _ h => ⟨fun _ => step_arrival_of_ok h, fun _ => step_arrival_of_reject h,
    fun _ => step_arrival_of_reject h, fun _ => step_arrival_of_reject h⟩

end Sys2Proof.Machine

/-! PROOF. What an operation can do to the block, said once for all operations; then the invariant of R27: at reset, kept by
every step, and so in every reached state. -/

namespace Sys2Proof.Machine

/-! ## The effect of an operation -/

/-- Everything an operation that answers a next state can do to the block `b` and to the delivered bytes `d`: one case
per outcome, with the condition under which it comes about. A write of a command word to `CMD` is that command (R149). -/
inductive Effect (b : Block) (d : List Byte) : Instr → Block → List Byte → Prop where
  | keep (i : Instr) : Effect b d i b d
  | reset : Effect b d .reset Block.reset d
  | release (i : Instr) : (b.phase = .done ∨ b.phase = .failed) → (i = .release ∨ i = .regwr 0x00 2) →
      Effect b d i Block.reset d
  | process (i : Instr) : b.phase = .start → (i = .process ∨ i = .regwr 0x00 1) →
      Effect b d i { b with phase := .validateDimensions } d
  | writeEw (v : Word) : b.phase = .start → Effect b d (.regwr 0x0C v) { b with ew := v } d
  | writeEh (v : Word) : b.phase = .start → Effect b d (.regwr 0x10 v) { b with eh := v } d
  | decOk (aw ah : Word) (buf : List Byte) : b.phase = .decode → buf.length = 3 * aw.toNat * ah.toNat →
      Effect b d (.decOk aw ah buf) { b with aw := aw, ah := ah, src := Memory.ofBytes buf, phase := .checkDimensions } buf
  | decErr (reason : DecodeReason) : b.phase = .decode → Effect b d (.decErr reason) (b.raise (kindOfReason reason)) d
  | decNomem : b.phase = .decode → Effect b d .decNomem (b.raise .allocationFailure) d
  | vdimOk : b.phase = .validateDimensions → legalDims b → Effect b d .vdim { b with phase := .decode } d
  | vdimFail : b.phase = .validateDimensions → ¬legalDims b → Effect b d .vdim (b.raise .invalidDimensions) d
  | cdimOk : b.phase = .checkDimensions → b.aw = b.ew → b.ah = b.eh → Effect b d .cdim { b with phase := .pack } d
  | cdimFail : b.phase = .checkDimensions → b.aw ≠ b.ew ∨ b.ah ≠ b.eh →
      Effect b d .cdim (b.raise .dimensionMismatch) d
  | allocOk (draw : Bool) (len : BitVec 18) (value : Nat → Byte) : b.phase = .pack → b.outlen = 0 →
      len.toNat = 2 * b.pixels →
      Effect b d (.alloc draw) { b with outlen := len, dst := Memory.fresh (2 * b.pixels) value, idx := 0 } d
  | allocFail (draw : Bool) : b.phase = .pack → b.outlen = 0 →
      Effect b d (.alloc draw) (b.raise .allocationFailure) d
  | packpx (r g bl : Byte) (idx : BitVec 17) : b.phase = .pack → b.outlen ≠ 0 → b.idx.toNat < b.pixels →
      2 * b.idx.toNat + 2 ≤ b.dst.length → readPixel b.src b.idx.toNat = some (r, g, bl) →
      idx.toNat = b.idx.toNat + 1 →
      Effect b d .packpx
        { b with dst := Memory.store b.dst (2 * b.idx.toNat) (le16 (pack565 r g bl)), idx := idx } d
  | finish : b.phase = .pack → b.outlen ≠ 0 → b.idx.toNat = b.pixels →
      Effect b d .finish { b with src := [], phase := .done } d

section
variable {s t : State} {i : Instr}

theorem effect_of_execProcess (h : execProcess s = .next t) (hi : i = .process ∨ i = .regwr 0x00 1) :
    Effect s.block s.env.delivered i t.block t.env.delivered := by
  obtain ⟨hp, rfl⟩ | ⟨-, rfl⟩ := execProcess_next.mp h
  · exact .process i hp hi
  · exact .keep i

theorem effect_of_execRelease (h : execRelease s = .next t) (hi : i = .release ∨ i = .regwr 0x00 2) :
    Effect s.block s.env.delivered i t.block t.env.delivered := by
  obtain ⟨hp, rfl⟩ | ⟨-, -, rfl⟩ := execRelease_next.mp h
  · exact .release i hp hi
  · exact .keep i

theorem effect_of_execRegwr {off : Nat} {v : Word} (h : execRegwr off v s = .next t) :
    Effect s.block s.env.delivered (.regwr off v) t.block t.env.delivered := by
  obtain ⟨rfl, hc⟩ | ⟨rfl, hp, rfl⟩ | ⟨rfl, hp, rfl⟩ | ⟨-, -, -, -, rfl⟩ := execRegwr_next.mp h
  · obtain ⟨rfl, hc⟩ | ⟨rfl, hc⟩ | ⟨-, -, rfl⟩ := issueCommand_next.mp hc
    · exact effect_of_execProcess hc (.inr rfl)
    · exact effect_of_execRelease hc (.inr rfl)
    · exact .keep _
  · exact .writeEw v hp
  · exact .writeEh v hp
  · exact .keep _

/-- `VDIM`'s test passes exactly for the legal dimensions (R111, R144). -/
theorem inRange_both_iff {b : Block} : (inRange b.ew = true ∧ inRange b.eh = true) ↔ legalDims b := by
  rw [inRange_iff, inRange_iff]
  rfl

/-- Every operation that answers a next state has one of the effects. -/
theorem exec_effect (h : exec i s = .next t) : Effect s.block s.env.delivered i t.block t.env.delivered := by
  cases i with
  | nop =>
    rw [execNop_next.mp h]
    exact .keep _
  | process => exact effect_of_execProcess h (.inl rfl)
  | release => exact effect_of_execRelease h (.inl rfl)
  | regrd off =>
    obtain ⟨-, rfl⟩ := execRegrd_next.mp h
    exact .keep _
  | regwr off v => exact effect_of_execRegwr h
  | dstrd off =>
    obtain ⟨-, -, b, -, rfl⟩ := execDstrd_next.mp h
    exact .keep _
  | decOk aw ah buf =>
    obtain ⟨hp, hl, rfl⟩ | ⟨-, rfl⟩ := execDecOk_next.mp h
    · exact .decOk aw ah buf hp hl
    · exact .keep _
  | decErr reason =>
    obtain ⟨hp, rfl⟩ | ⟨-, rfl⟩ := execDecErr_next.mp h
    · exact .decErr reason hp
    · exact .keep _
  | decNomem =>
    obtain ⟨hp, rfl⟩ | ⟨-, rfl⟩ := execDecNomem_next.mp h
    · exact .decNomem hp
    · exact .keep _
  | vdim =>
    obtain ⟨hp, ⟨hw, hh, rfl⟩ | ⟨hn, rfl⟩⟩ := execVdim_next.mp h
    · exact .vdimOk hp (inRange_both_iff.mp ⟨hw, hh⟩)
    · exact .vdimFail hp (mt inRange_both_iff.mpr hn)
  | cdim =>
    obtain ⟨hp, ⟨hw, hh, rfl⟩ | ⟨hn, rfl⟩⟩ := execCdim_next.mp h
    · exact .cdimOk hp hw hh
    · exact .cdimFail hp (not_and_or.mp hn)
  | alloc draw =>
    obtain ⟨hp, ho, ⟨-, len, hl, rfl⟩ | ⟨-, rfl⟩⟩ := execAlloc_next.mp h
    · exact .allocOk draw len _ hp ho hl
    · exact .allocFail draw hp ho
  | packpx =>
    obtain ⟨hp, ho, hi, hd, r, g, bl, hr, idx, hx, rfl⟩ := execPackpx_next.mp h
    exact .packpx r g bl idx hp ho hi hd hr hx
  | finish =>
    obtain ⟨hp, ho, hi, rfl⟩ := execFinish_next.mp h
    exact .finish hp ho hi
  | reset =>
    rw [execReset_next.mp h]
    exact .reset

/-- What a step does to the block and to the delivered bytes is nothing, or the effect of one operation. -/
theorem step_effect (h : step s = .next t) : ∃ i, Effect s.block s.env.delivered i t.block t.env.delivered := by
  obtain ⟨hb, -, -, hd⟩ := fetch_keeps s
  obtain ⟨i, -, hx⟩ | ⟨-, -, rfl⟩ := step_next h
  · have he := exec_effect hx
    rw [hb, hd] at he
    exact ⟨i, he⟩
  · rw [hb, hd]
    exact ⟨.nop, .keep _⟩

end

/-! ## R27 phase by phase -/

/-- What INV9 to INV11 ask of the dimensions once a kind has been raised; `Failed` does not hold `none` (INV8). -/
def RaisedRightly (b : Block) : ErrKind → Prop
  | .none => False
  | .dimensionMismatch => legalDims b ∧ (b.aw ≠ b.ew ∨ b.ah ≠ b.eh)
  | .allocationFailure => legalDims b ∧ ((b.aw = 0 ∧ b.ah = 0) ∨ (b.aw = b.ew ∧ b.ah = b.eh))
  | _ => b.aw = 0 ∧ b.ah = 0

/-- What INV1 to INV11 ask of a block in a given phase. -/
def PhaseClause (b : Block) (delivered : List Byte) : Phase → Prop
  | .start => Untouched b
  | .validateDimensions => Untouched b
  | .decode => legalDims b ∧ Untouched b
  | .checkDimensions => legalDims b ∧ b.idx = 0 ∧ b.err = .none ∧ b.outlen = 0 ∧ b.dst = [] ∧
      b.src.length = 3 * b.aw.toNat * b.ah.toNat
  | .pack => (legalDims b ∧ b.aw = b.ew ∧ b.ah = b.eh ∧ b.err = .none ∧ b.src.length = 3 * b.pixels) ∧
      (b.outlen = 0 → b.idx = 0 ∧ b.dst = []) ∧
      (b.outlen ≠ 0 → b.outlen.toNat = 2 * b.pixels ∧ b.idx.toNat ≤ b.pixels ∧
        ∀ i, i < b.idx.toNat → PixelPacked b.src b.dst i)
  | .done => legalDims b ∧ b.aw = b.ew ∧ b.ah = b.eh ∧ b.err = .none ∧ b.idx.toNat = b.pixels ∧
      b.outlen.toNat = 2 * b.pixels ∧ b.src = [] ∧ ∀ i, i < b.pixels → PixelPacked (Memory.ofBytes delivered) b.dst i
  | .failed => RaisedRightly b b.err ∧ b.idx = 0 ∧ b.outlen = 0 ∧ b.src = [] ∧ b.dst = []

/-- INV12 without the codes, which the types of `PHASE` and `ERR` leave out (log 20). -/
def WithinBounds (b : Block) : Prop :=
  b.idx.toNat ≤ 65536 ∧ b.outlen.toNat ≤ 131072 ∧ b.dst.length = b.outlen.toNat

theorem phaseCode_ne_seven (p : Phase) : (phaseCode p).toNat ≠ 7 := by
  cases p <;> decide

theorem errCode_le_seven (k : ErrKind) : (errCode k).toNat ≤ 7 := by
  cases k <;> decide

/-- INV8 to INV11 say of the code of the kind what `RaisedRightly` says of the kind. -/
theorem raisedRightly_iff {b : Block} {k : ErrKind} : RaisedRightly b k ↔
    1 ≤ (errCode k).toNat ∧ ((errCode k).toNat ≤ 5 → b.aw = 0 ∧ b.ah = 0) ∧
    ((errCode k).toNat = 6 → legalDims b ∧ (b.aw ≠ b.ew ∨ b.ah ≠ b.eh)) ∧
    ((errCode k).toNat = 7 → legalDims b ∧ ((b.aw = 0 ∧ b.ah = 0) ∨ (b.aw = b.ew ∧ b.ah = b.eh))) := by
  cases k <;> simp [RaisedRightly, errCode]

/-- R27's table follows from the clause of the present phase and the bounds. -/
theorem rule27_of_phaseClause {b : Block} {d : List Byte} (hc : PhaseClause b d b.phase) (hb : WithinBounds b) :
    Rule27 b d := by
  have clause : ∀ {p}, b.phase = p → PhaseClause b d p := fun h => h ▸ hc
  have raised : b.phase = .failed → _ := fun h => raisedRightly_iff.mp (clause h).1
  exact {
    inv1 := fun h => h.elim clause clause
    inv2 := clause
    inv3 := clause
    inv4 := fun h => (clause h).1
    inv5 := fun h => (clause h).2.1
    inv6 := fun h => (clause h).2.2
    inv7 := clause
    inv8 := fun h => ⟨(raised h).1, errCode_le_seven b.err, (clause h).2⟩
    inv9 := fun h _ => (raised h).2.1
    inv10 := fun h => (raised h).2.2.1
    inv11 := fun h => (raised h).2.2.2
    inv12 := ⟨phaseCode_ne_seven b.phase, errCode_le_seven b.err, hb⟩ }

/-- The bounds of a block that holds no packed pixel. -/
theorem withinBounds_of_empty {b : Block} (hi : b.idx = 0) (ho : b.outlen = 0) (hd : b.dst = []) : WithinBounds b := by
  simp [WithinBounds, hi, ho, hd]

/-- What INV1 asks does not depend on `PHASE`, `EW` and `EH`. -/
theorem Untouched.with_phase_ew_eh {b : Block} (h : Untouched b) (p : Phase) (ew eh : Word) :
    Untouched { b with phase := p, ew := ew, eh := eh } :=
  { h with }

theorem Untouched.withinBounds {b : Block} (h : Untouched b) : WithinBounds b :=
  withinBounds_of_empty h.idx h.outlen h.dst

theorem Rule27.withinBounds {b : Block} {d : List Byte} (h : Rule27 b d) : WithinBounds b := h.inv12.2.2

theorem rule27_reset (d : List Byte) : Rule27 Block.reset d :=
  have untouched : Untouched Block.reset := ⟨rfl, rfl, rfl, rfl, rfl, rfl, rfl⟩
  rule27_of_phaseClause untouched untouched.withinBounds

/-- Error entry needs no more than the dimensions that its kind speaks of (R170). -/
theorem rule27_raise {b : Block} {k : ErrKind} (d : List Byte) (h : RaisedRightly (b.raise k) k) :
    Rule27 (b.raise k) d :=
  rule27_of_phaseClause (And.intro h ⟨rfl, rfl, rfl, rfl⟩) (withinBounds_of_empty rfl rfl rfl)

/-! ## Packed pixels -/

/-- Storing the two bytes of pixel `i` leaves every earlier packed pixel. -/
theorem pixelPacked_store_of_lt {src dst : Memory} {i j : Nat} (w : Half) (hj : j < i) (h : PixelPacked src dst j) :
    PixelPacked src (Memory.store dst (2 * i) (le16 w)) j := by
  obtain ⟨r, g, bl, hs, hd⟩ := h
  refine ⟨r, g, bl, hs, ?_⟩
  rw [← hd]
  refine Memory.readBytes_congr 2 _ fun a _ ha => Memory.read_store_other _ _ (.inl ?_)
  simp only [dstOff, Config.bppDst] at ha
  omega

/-- Storing the word of pixel `i` packs that pixel. -/
theorem pixelPacked_store {src dst : Memory} {i : Nat} {r g bl : Byte} (hw : Memory.wf dst)
    (hl : 2 * i + 2 ≤ dst.length) (hs : readPixel src i = some (r, g, bl)) :
    PixelPacked src (Memory.store dst (2 * i) (le16 (pack565 r g bl))) i :=
  ⟨r, g, bl, hs, Memory.readBytes_store_two hw _ _ hl⟩

/-! ## Every effect keeps the invariant -/

section
variable {b b' : Block} {d d' : List Byte} {i : Instr}

/-- An admitted kind of `DEC.ERR` is one of those that come before any dimensions are known (R102, INV9). -/
theorem raisedRightly_kindOfReason {reason : DecodeReason} (hw : b.aw = 0) (hh : b.ah = 0) :
    RaisedRightly b (kindOfReason reason) := by
  cases reason <;> exact ⟨hw, hh⟩

theorem effect_keeps_canonicalForm (h : Effect b d i b' d') (hs : Memory.wf b.src) (hd : Memory.wf b.dst) :
    Memory.wf b'.src ∧ Memory.wf b'.dst := by
  cases h with
  | keep | process | writeEw | writeEh | vdimOk | cdimOk => exact ⟨hs, hd⟩
  | reset | release | decErr | decNomem | vdimFail | cdimFail | allocFail => exact ⟨Memory.nil_wf, Memory.nil_wf⟩
  | decOk => exact ⟨Memory.ofBytes_wf _, hd⟩
  | allocOk => exact ⟨hs, Memory.fresh_wf _ _⟩
  | packpx => exact ⟨hs, Memory.store_wf _ _ hd⟩
  | finish => exact ⟨Memory.nil_wf, hd⟩

/-- `SRC` is what `DEC.OK` delivered, as long as the call needs it (log 14). -/
def HoldsDelivered (b : Block) (d : List Byte) : Prop :=
  b.phase = .checkDimensions ∨ b.phase = .pack → b.src = Memory.ofBytes d

theorem effect_keeps_holdsDelivered (h : Effect b d i b' d') (hs : HoldsDelivered b d) : HoldsDelivered b' d' := by
  cases h with
  | keep | allocOk | packpx => exact hs
  | decOk => exact fun _ => rfl
  | cdimOk hp => exact fun _ => hs (.inl hp)
  | writeEw _ hp | writeEh _ hp => simp [HoldsDelivered, hp]
  | reset | release | process | decErr | decNomem | vdimOk | vdimFail | cdimFail | allocFail | finish =>
    simp [HoldsDelivered, Block.reset]

theorem effect_keeps_rule27 (h : Effect b d i b' d') (hr : Rule27 b d) (hw : Memory.wf b.dst) (hs : HoldsDelivered b d) :
    Rule27 b' d' := by
  have hb := hr.withinBounds
  cases h with
  | keep => exact hr
  | reset | release => exact rule27_reset d
  | process i hp =>
    have hu := (hr.inv1 (.inl hp)).with_phase_ew_eh .validateDimensions b.ew b.eh
    exact rule27_of_phaseClause hu hb
  | writeEw v hp =>
    have hu := (hr.inv1 (.inl hp)).with_phase_ew_eh .start v b.eh
    exact rule27_of_phaseClause (by rw [hp]; exact hu) hb
  | writeEh v hp =>
    have hu := (hr.inv1 (.inl hp)).with_phase_ew_eh .start b.ew v
    exact rule27_of_phaseClause (by rw [hp]; exact hu) hb
  | decOk aw ah buf hp hl =>
    obtain ⟨hd, hu⟩ := hr.inv2 hp
    exact rule27_of_phaseClause ⟨hd, hu.idx, hu.err, hu.outlen, hu.dst, by simpa using hl⟩ hb
  | decErr reason hp =>
    obtain ⟨-, hu⟩ := hr.inv2 hp
    exact rule27_raise d (raisedRightly_kindOfReason hu.aw hu.ah)
  | decNomem hp =>
    obtain ⟨hd, hu⟩ := hr.inv2 hp
    exact rule27_raise d ⟨hd, .inl ⟨hu.aw, hu.ah⟩⟩
  | vdimOk hp hd =>
    have hu := hr.inv1 (.inr hp)
    exact rule27_of_phaseClause ⟨hd, hu.with_phase_ew_eh _ _ _⟩ hb
  | vdimFail hp =>
    have hu := hr.inv1 (.inr hp)
    exact rule27_raise d ⟨hu.aw, hu.ah⟩
  | cdimOk hp hew heh =>
    obtain ⟨hd, hi, he, ho, hdst, hl⟩ := hr.inv3 hp
    have hl' : b.src.length = 3 * b.pixels := by rw [hl, hew, heh, Block.pixels, Nat.mul_assoc]
    exact rule27_of_phaseClause ⟨⟨hd, hew, heh, he, hl'⟩, fun _ => ⟨hi, hdst⟩, fun hne => absurd ho hne⟩ hb
  | cdimFail hp hne =>
    obtain ⟨hd, -⟩ := hr.inv3 hp
    exact rule27_raise d ⟨hd, hne⟩
  | allocOk draw len value hp ho hl =>
    have hc := hr.inv4 hp
    obtain ⟨h1, h2⟩ := pixels_bounds hc.1
    have hne : len ≠ 0 := by
      rintro rfl
      change 0 = 2 * b.pixels at hl
      omega
    have hlen : len.toNat ≤ 131072 := by omega
    refine rule27_of_phaseClause ?_ ⟨Nat.zero_le _, hlen, by simp [hl]⟩
    rw [hp]
    exact ⟨hc, fun h0 => absurd h0 hne, fun _ => ⟨hl, Nat.zero_le _, fun j hj => absurd hj (Nat.not_lt_zero j)⟩⟩
  | allocFail draw hp =>
    obtain ⟨hd, hew, heh, -⟩ := hr.inv4 hp
    exact rule27_raise d ⟨hd, .inr ⟨hew, heh⟩⟩
  | packpx r g bl idx hp ho hi hl hs hx =>
    have hc := hr.inv4 hp
    obtain ⟨-, h2⟩ := pixels_bounds hc.1
    obtain ⟨hlen, -, hpacked⟩ := hr.inv6 hp ho
    have hle : idx.toNat ≤ b.pixels := by omega
    refine rule27_of_phaseClause ?_ ⟨hle.trans h2, hb.2.1, by simpa using hb.2.2⟩
    rw [hp]
    refine ⟨hc, fun h0 => absurd h0 ho, fun _ => ⟨hlen, hle, fun j (hj : j < idx.toNat) => ?_⟩⟩
    obtain hj | rfl : j < b.idx.toNat ∨ j = b.idx.toNat := by omega
    · exact pixelPacked_store_of_lt _ hj (hpacked j hj)
    · exact pixelPacked_store hw hl hs
  | finish hp ho hi =>
    obtain ⟨hd, hew, heh, he, -⟩ := hr.inv4 hp
    obtain ⟨hlen, -, hpacked⟩ := hr.inv6 hp ho
    refine rule27_of_phaseClause ⟨hd, hew, heh, he, hi, hlen, rfl, fun j hj => ?_⟩ hb
    rw [← hs (.inr hp)]
    exact hpacked j (hi ▸ hj)

end

/-- Settles O53: what a step does is the effect of one operation, and every effect keeps the three parts of the invariant. -/
theorem everyStepKeepsTheInvariant : Obligations.EveryStepKeepsTheInvariant := by
  intro s t ⟨hr, hsrc, hdst, hs⟩ h
  obtain ⟨i, he⟩ := step_effect h
  obtain ⟨hsrc', hdst'⟩ := effect_keeps_canonicalForm he hsrc hdst
  exact ⟨effect_keeps_rule27 he hr hdst hs, hsrc', hdst', effect_keeps_holdsDelivered he hs⟩

/-! ## R27 along a run -/

/-- The invariant holds at the reset block, whatever the environment. -/
theorem machineInv_of_reset {s : State} (h : s.block = Block.reset) : MachineInv s := by
  obtain ⟨b, e⟩ := s
  subst h
  exact ⟨rule27_reset _, Memory.nil_wf, Memory.nil_wf, by simp [Block.reset]⟩

/-- Settles O52. -/
theorem invariantHoldsAtReset : Obligations.InvariantHoldsAtReset :=
  ⟨machineInv_of_reset rfl, fun _ _ => machineInv_of_reset rfl⟩

/-- A run keeps the invariant, by induction on its steps. -/
theorem run_keeps_machineInv {k : Nat} {s t : State} (h : run k s = .next t) (hs : MachineInv s) : MachineInv t := by
  induction k generalizing s with
  | zero => exact Host.Outcome.next.inj h ▸ hs
  | succ k ih =>
    rw [run] at h
    split at h
    · rename_i u hu
      exact ih h (everyStepKeepsTheInvariant s u hs hu)
    · cases h
    · cases h

/-- Settles O54: the invariant holds at the start of every run and along it. -/
theorem invariantsHoldInEveryReachedState : Obligations.InvariantsHoldInEveryReachedState := by
  rintro s ⟨agenda, draws, k, h⟩
  exact (run_keeps_machineInv h (invariantHoldsAtReset.2 agenda draws)).rule27

end Sys2Proof.Machine

/-! PROOF. Who may write what, in which phase (R23). -/

namespace Sys2Proof.Machine

/-- Settles O47, by the effect of the operation: the invariant says which writes of error entry (R170) change nothing. -/
theorem onlyTheAllowedAgentWrites : Obligations.OnlyTheAllowedAgentWrites := by
  intro i s t hm h
  have he := exec_effect h
  have hr := hm.rule27
  generalize s.block = b, s.env.delivered = d, t.block = b', t.env.delivered = d' at he hr ⊢
  cases he with
  | reset => exact .inl ⟨.inl rfl, rfl⟩
  | release i hp hi => exact .inl ⟨.inr ⟨hp, hi⟩, rfl⟩
  | keep => right; simp
  | process i hp hi => right; simpa [hp] using Or.inl hi
  | writeEw v hp | writeEh v hp => right; simp [hp, hostOp]
  | decOk aw ah buf hp => right; simp [hp]
  | decErr reason hp | decNomem hp =>
    obtain ⟨-, hu⟩ := hr.inv2 hp
    right; simp [hp, hu.src, hu.dst, hu.outlen, hu.idx]
  | vdimFail hp =>
    have hu := hr.inv1 (.inr hp)
    right; simp [hp, hu.src, hu.dst, hu.outlen, hu.idx, enginePhase, engineOp]
  | cdimFail hp =>
    obtain ⟨-, hi, -, ho, hdst, -⟩ := hr.inv3 hp
    right; simp [hp, hi, ho, hdst, enginePhase, engineOp]
  | vdimOk hp | cdimOk hp | allocOk draw len value hp | allocFail draw hp | packpx r g bl idx hp | finish hp =>
    right; simp [hp, enginePhase, engineOp]

end Sys2Proof.Machine

/-! PROOF. The reset values (R28) and `STATUS` as a view of `PHASE` and `ERR` (R20). -/

namespace Sys2Proof.Machine

/-- Settles O1, item by item. -/
theorem resetLeavesEveryItemAtItsValue : Obligations.ResetLeavesEveryItemAtItsValue :=
  ⟨rfl, rfl, rfl, rfl, rfl, rfl, rfl, rfl, rfl, rfl, rfl, rfl⟩

section
variable (p : Phase) (e : ErrKind)

/-- `STATUS` bit by bit: the code of `PHASE`, the five fields above it, and 0 from bit 8 up. -/
theorem statusWord_getLsbD (i : Nat) : (statusWord p e).getLsbD i =
    if i < 3 then (phaseCode p).getLsbD i
    else [busyBit p, doneBit p, failedBit p, decreqBit p, fatalBit p e].getD (i - 3) false := by
  change BitVec.getLsbD (w := 24 + 1 + 1 + 1 + 1 + 1 + 3) (_ ++ _) i = _
  rw [BitVec.getLsbD_append]
  by_cases h : i < 3
  · simp [h]
  · obtain ⟨j, rfl⟩ : ∃ j, i = j + 3 := ⟨i - 3, by omega⟩
    simp only [BitVec.getLsbD_append]
    rcases j with _ | _ | _ | _ | _ | j <;> simp

theorem statusWord_phase : (statusWord p e).extractLsb' 0 3 = phaseCode p := by
  ext i hi
  simp only [BitVec.getElem_extractLsb', Nat.zero_add, statusWord_getLsbD, if_pos hi, BitVec.getLsbD_eq_getElem hi]

theorem statusWord_busy : (statusWord p e).getLsbD 3 = busyBit p := statusWord_getLsbD p e 3

theorem statusWord_done : (statusWord p e).getLsbD 4 = doneBit p := statusWord_getLsbD p e 4

theorem statusWord_failed : (statusWord p e).getLsbD 5 = failedBit p := statusWord_getLsbD p e 5

theorem statusWord_decreq : (statusWord p e).getLsbD 6 = decreqBit p := statusWord_getLsbD p e 6

theorem statusWord_fatal : (statusWord p e).getLsbD 7 = fatalBit p e := statusWord_getLsbD p e 7

theorem statusWord_reserved : (statusWord p e).extractLsb' 8 24 = 0 := by
  ext i hi
  rw [BitVec.getElem_extractLsb', statusWord_getLsbD, if_neg (by omega), show 8 + i - 3 = i + 5 by omega]
  simp

theorem busyBit_iff : busyBit p = true ↔
    p = .validateDimensions ∨ p = .decode ∨ p = .checkDimensions ∨ p = .pack := by
  cases p <;> decide

theorem errCode_eq_seven_iff : errCode e = 7 ↔ e = .allocationFailure := by
  cases e <;> decide

theorem fatalBit_iff : fatalBit p e = true ↔ p = .failed ∧ errCode e = 7 := by
  rw [errCode_eq_seven_iff, fatalBit, Bool.and_eq_true, beq_iff_eq, beq_iff_eq]

end

/-- A write to `STATUS` is dropped in every state (R20, R149). -/
theorem execRegwr_status (s : State) (v : Word) : execRegwr 0x04 v s = .next s :=
  execRegwr_next.mpr (.inr (.inr (.inr (by simp))))

/-- Settles O14: the fields of the word one by one, then the write and the read. -/
theorem statusIsAViewOfPhaseAndErr : Obligations.StatusIsAViewOfPhaseAndErr := by
  refine ⟨fun p e => ⟨statusWord_phase p e, ?_, ?_, ?_, ?_, ?_, statusWord_reserved p e⟩, execRegwr_status, ?_⟩
  · rw [statusWord_busy, busyBit_iff]
  · rw [statusWord_done, doneBit, beq_iff_eq]
  · rw [statusWord_failed, failedBit, beq_iff_eq]
  · rw [statusWord_decreq, decreqBit, beq_iff_eq]
  · rw [statusWord_fatal, fatalBit_iff]
  · intro s t h
    obtain ⟨-, rfl⟩ := execRegrd_next.mp h
    exact ⟨rfl, rfl⟩

/-- Settles O15, phase by phase: `BUSY`, `DONE` and `FAILED` split the phases other than `Start` among them. -/
theorem statusShowsExactlyOneSituation : Obligations.StatusShowsExactlyOneSituation := by
  intro p e
  rw [statusWord_busy, statusWord_done, statusWord_failed]
  cases p with
  | start => exact .inl (by decide)
  | validateDimensions | decode | checkDimensions | pack => exact .inr (.inl (by decide))
  | done => exact .inr (.inr (.inl (by decide)))
  | failed => exact .inr (.inr (.inr (by decide)))

end Sys2Proof.Machine

/-! PROOF. The two address spaces: where the channels of a source pixel stand (R42), the canonical form (R40), and that every
access of a step lies inside its space (R50). -/

namespace Sys2Proof.Machine

/-! ## A source pixel -/

/-- Reading a run of bytes is reading the first one and then the rest. -/
theorem Memory.readBytes_succ_eq_some {m : Memory} {off n : Nat} {x : Byte} {xs : List Byte} :
    Memory.readBytes m off (n + 1) = some (x :: xs) ↔
      Memory.read m off = some x ∧ Memory.readBytes m (off + 1) n = some xs := by
  rw [Memory.readBytes]
  cases Memory.read m off <;> cases Memory.readBytes m (off + 1) n <;> simp

/-- Reading a pixel is reading its three bytes (R41). -/
theorem readPixel_eq_some {src : Memory} {idx : Nat} {r g b : Byte} :
    readPixel src idx = some (r, g, b) ↔ Memory.readBytes src (3 * idx) 3 = some [r, g, b] := by
  unfold readPixel
  rw [srcOff, Config.bppSrc]
  split
  · rename_i hb
    simp [hb]
  · rename_i hb
    simpa using hb r g b

/-- Settles O36: the run of three bytes, byte by byte. -/
theorem sourcePixelIsRedGreenBlue : Obligations.SourcePixelIsRedGreenBlue := by
  intro src idx r g b
  rw [readPixel_eq_some, Memory.readBytes_succ_eq_some, Memory.readBytes_two]

/-! ## The canonical form -/

/-- Settles O51: what a step does is the effect of one operation, and every effect keeps the canonical form. -/
theorem stepKeepsTheCanonicalForm : Obligations.StepKeepsTheCanonicalForm := by
  intro s t hsrc hdst h
  obtain ⟨i, he⟩ := step_effect h
  exact effect_keeps_canonicalForm he hsrc hdst

/-! ## The accesses that the invariant keeps in bounds -/

/-- The inequalities of R50: where `PACKPX` is enabled its bytes exist in both spaces. -/
theorem packpx_in_bounds {b : Block} {d : List Byte} (hr : Rule27 b d) (hp : b.phase = .pack) (ho : b.outlen ≠ 0)
    (hi : b.idx.toNat < b.pixels) :
    3 * b.idx.toNat + 2 < 3 * b.pixels ∧ 3 * b.pixels = b.src.length ∧
      2 * b.idx.toNat + 1 < 2 * b.pixels ∧ 2 * b.pixels = b.dst.length := by
  obtain ⟨-, -, -, -, hsrc⟩ := hr.inv4 hp
  obtain ⟨hout, -⟩ := hr.inv6 hp ho
  obtain ⟨-, -, hdst⟩ := hr.withinBounds
  exact ⟨by omega, hsrc.symm, by omega, by omega⟩

section
variable {s : State} {f : Fault}

theorem next_ne_fault {t : State} : (.next t : Host.Outcome State Fault Refusal) ≠ .fault f := nofun

theorem refused_ne_fault {r : Refusal} : (.refused r : Host.Outcome State Fault Refusal) ≠ .fault f := nofun

theorem ite_ne_fault {p : Prop} [Decidable p] {o o' : Host.Outcome State Fault Refusal} (h : o ≠ .fault f)
    (h' : o' ≠ .fault f) : (if p then o else o') ≠ .fault f := by
  split
  · exact h
  · exact h'

theorem execDstrd_ne_fault {off : Nat} (hm : MachineInv s) : execDstrd off s ≠ .fault f := by
  by_cases h : s.block.phase = .done ∧ off < s.block.outlen.toNat
  · obtain ⟨-, -, hdst⟩ := hm.rule27.withinBounds
    obtain ⟨b, hb⟩ := Memory.exists_read_of_wf hm.dstWf (hdst ▸ h.2)
    rw [execDstrd_next.mpr ⟨h.1, h.2, b, hb, rfl⟩]
    exact next_ne_fault
  · rw [execDstrd_refused.mpr ⟨h, rfl⟩]
    exact refused_ne_fault

/-- The length of the buffer fits `OUTLEN` (R118). -/
theorem execAlloc_ne_fault {draw : Bool} (hm : MachineInv s) : execAlloc draw s ≠ .fault f := by
  by_cases h : s.block.phase = .pack ∧ s.block.outlen = 0
  · obtain ⟨hd, -⟩ := hm.rule27.inv4 h.1
    have hfit : 2 * s.block.pixels < 2 ^ 18 := by
      have := (pixels_bounds hd).2
      omega
    cases hg : granted draw with
    | false =>
      rw [execAlloc_next.mpr ⟨h.1, h.2, .inr ⟨hg, rfl⟩⟩]
      exact next_ne_fault
    | true =>
      rw [execAlloc_next.mpr ⟨h.1, h.2, .inl ⟨hg, .ofNatLT _ hfit, BitVec.toNat_ofNatLT _ _, rfl⟩⟩]
      exact next_ne_fault
  · rw [execAlloc_refused.mpr ⟨h, rfl⟩]
    exact refused_ne_fault

/-- The bytes exist in both spaces (R50), and the count of pixels fits `IDX` (R118). -/
theorem execPackpx_ne_fault (hm : MachineInv s) : execPackpx s ≠ .fault f := by
  by_cases h : s.block.phase = .pack ∧ s.block.outlen ≠ 0 ∧ s.block.idx.toNat < s.block.pixels
  · obtain ⟨hp, ho, hi⟩ := h
    obtain ⟨-, hsrc, -, hdst⟩ := packpx_in_bounds hm.rule27 hp ho hi
    obtain ⟨r, g, bl, hpix⟩ := exists_readPixel hm.srcWf (i := s.block.idx.toNat) (by omega)
    obtain ⟨hd, -⟩ := hm.rule27.inv4 hp
    have hfit : s.block.idx.toNat + 1 < 2 ^ 17 := by
      have := (pixels_bounds hd).2
      omega
    rw [execPackpx_next.mpr ⟨hp, ho, hi, by omega, r, g, bl, hpix, .ofNatLT _ hfit, BitVec.toNat_ofNatLT _ _, rfl⟩]
    exact next_ne_fault
  · rw [execPackpx_refused.mpr ⟨h, rfl⟩]
    exact refused_ne_fault

/-! ## No other operation accesses a space or forms a value that could not fit -/

theorem execProcess_ne_fault : execProcess s ≠ .fault f := ite_ne_fault next_ne_fault next_ne_fault

theorem execRelease_ne_fault : execRelease s ≠ .fault f := ite_ne_fault next_ne_fault next_ne_fault

theorem issueCommand_ne_fault {v : Word} : issueCommand v s ≠ .fault f := by
  unfold issueCommand
  split
  · exact next_ne_fault
  · exact execProcess_ne_fault
  · exact execRelease_ne_fault
  · exact next_ne_fault

theorem execRegwr_ne_fault {off : Nat} {v : Word} : execRegwr off v s ≠ .fault f :=
  ite_ne_fault
    (ite_ne_fault issueCommand_ne_fault (ite_ne_fault next_ne_fault (ite_ne_fault next_ne_fault next_ne_fault)))
    refused_ne_fault

/-- Under the invariant no operation faults, whoever performs it (log 12). -/
theorem exec_ne_fault {i : Instr} (hm : MachineInv s) : exec i s ≠ .fault f := by
  cases i with
  | nop | reset => exact next_ne_fault
  | process => exact execProcess_ne_fault
  | release => exact execRelease_ne_fault
  | regrd off => exact ite_ne_fault next_ne_fault refused_ne_fault
  | regwr off v => exact execRegwr_ne_fault
  | dstrd off => exact execDstrd_ne_fault hm
  | decOk aw ah buf => exact ite_ne_fault (ite_ne_fault next_ne_fault refused_ne_fault) next_ne_fault
  | decErr reason => exact ite_ne_fault next_ne_fault next_ne_fault
  | decNomem => exact ite_ne_fault next_ne_fault next_ne_fault
  | vdim | cdim => exact ite_ne_fault (ite_ne_fault next_ne_fault next_ne_fault) refused_ne_fault
  | alloc draw => exact execAlloc_ne_fault hm
  | packpx => exact execPackpx_ne_fault hm
  | finish => exact ite_ne_fault next_ne_fault refused_ne_fault

theorem onReject_ne_fault {r : Reject} : onReject r s ≠ .fault f := by
  cases r with
  | misaligned off => exact refused_ne_fault
  | reservedCommand | reservedResponse | noOperation => exact next_ne_fault

/-- Taking the turn keeps the invariant, so the operation meets it as well. -/
theorem safeStep_of_machineInv (hm : MachineInv s) : SafeStep s := by
  intro f
  obtain ⟨hb, -, -, hd⟩ := fetch_keeps s
  unfold step
  split
  · exact exec_ne_fault (machineInv_congr hb hd hm)
  · exact onReject_ne_fault

/-! ## The inputs that a step refuses -/

/-- The refusals of R83, R150 and R104, each with the input that meets it. -/
def RefusedInput (b : Block) (r : Refusal) : Prop :=
  (∃ off, r = .misalignedRegisterAccess off ∧ off % 4 ≠ 0) ∨
  (∃ off, r = .dstReadNotAdmitted off ∧ ¬(b.phase = .done ∧ off < b.outlen.toNat)) ∨
  (r = .decoderBufferLength ∧ b.phase = .decode)

/-- An operation refuses one of those inputs, or is one of the Engine's where it is not enabled (log 11). -/
theorem refusedInput_of_exec {i : Instr} {r : Refusal} (h : exec i s = .refused r) :
    RefusedInput s.block r ∨ r = .engineNotEnabled := by
  cases i with
  | nop | reset => exact absurd h next_ne_refused
  | process => exact absurd h execProcess_ne_refused
  | release => exact absurd h execRelease_ne_refused
  | decErr reason => exact absurd h execDecErr_ne_refused
  | decNomem => exact absurd h execDecNomem_ne_refused
  | regrd off =>
    obtain ⟨ho, hr⟩ := execRegrd_refused.mp h
    exact .inl (.inl ⟨off, hr, ho⟩)
  | regwr off v =>
    obtain ⟨ho, hr⟩ := execRegwr_refused.mp h
    exact .inl (.inl ⟨off, hr, ho⟩)
  | dstrd off =>
    obtain ⟨ho, hr⟩ := execDstrd_refused.mp h
    exact .inl (.inr (.inl ⟨off, hr, ho⟩))
  | decOk aw ah buf =>
    obtain ⟨hp, -, hr⟩ := execDecOk_refused.mp h
    exact .inl (.inr (.inr ⟨hr, hp⟩))
  | vdim => exact .inr (execVdim_refused.mp h).2
  | cdim => exact .inr (execCdim_refused.mp h).2
  | alloc draw => exact .inr (execAlloc_refused.mp h).2
  | packpx => exact .inr (execPackpx_refused.mp h).2
  | finish => exact .inr (execFinish_refused.mp h).2

/-- The decoder rejects as misaligned only an offset that is (R83). -/
theorem decode_misaligned {m : Message} {off : Nat} (h : decode m = .reject (.misaligned off)) : off % 4 ≠ 0 := by
  cases m with
  | select sel draw =>
    simp only [decode, decodeSelector] at h
    split_ifs at h
    · split at h <;> cases h
    · cases h
  | arrival a =>
    cases a with
    | readReg o | writeReg o v =>
      simp only [decode, decodeArrival] at h
      split_ifs at h with ho
      cases h
      exact ho
    | command w =>
      simp only [decode, decodeArrival] at h
      split at h <;> cases h
    | response w0 w1 w2 buf =>
      simp only [decode, decodeArrival, decodeResponse] at h
      split_ifs at h
      · split at h <;> cases h
      · cases h
    | readDst | resetLine => cases h

/-- Only the rejection of a misaligned access is refused; every other rejection is a drop. -/
theorem onReject_refused {reject : Reject} {r : Refusal} (h : onReject reject s = .refused r) :
    ∃ off, reject = .misaligned off ∧ r = .misalignedRegisterAccess off := by
  cases reject with
  | misaligned off => exact ⟨off, rfl, (Host.Outcome.refused.inj h).symm⟩
  | reservedCommand | reservedResponse | noOperation => exact absurd h drop_ne_refused

theorem refusedInput_of_step {r : Refusal} (h : step s = .refused r) : RefusedInput s.block r := by
  have hne : r ≠ .engineNotEnabled := fun e => step_ne_engineNotEnabled s (e ▸ h)
  obtain ⟨hb, -⟩ := fetch_keeps s
  unfold step at h
  split at h
  · rw [← hb]
    exact (refusedInput_of_exec h).resolve_right hne
  · rename_i reject hd
    obtain ⟨off, rfl, rfl⟩ := onReject_refused h
    exact .inl ⟨off, rfl, decode_misaligned hd⟩

end

/-- Settles O55: no operation faults under the invariant, R50's inequalities are those of R27's INV4, INV6 and INV12, and what
a step performs is enabled, so it refuses no more than a misplaced input. -/
theorem noStepFaultsUnderTheInvariant : Obligations.NoStepFaultsUnderTheInvariant :=
  fun _ hm => ⟨safeStep_of_machineInv hm, packpx_in_bounds hm.rule27, fun _ => refusedInput_of_step⟩

end Sys2Proof.Machine

/-! PROOF. The decoder and the encoder: which words each door assigns (R79, R82, R83), which operation the Engine's state
selects (R84), and that decoding and encoding are inverse to each other. -/

namespace Sys2Proof.Machine

/-! ## Commands (R79) -/

/-- A `CMD` word selects a command exactly where it is that command's own word. -/
theorem decodeCommand_eq_some {w : Word} {c : Command} :
    decodeCommand w = some c ↔ encode (commandInstr c) = .arrival (.command w) := by
  unfold decodeCommand
  split_ifs with h0 h1 h2
  · cases c <;> simp [commandInstr, encode, h0]
  · cases c <;> simp [commandInstr, encode, h1]
  · cases c <;> simp [commandInstr, encode, h2]
  · cases c <;> simp [commandInstr, encode, eq_comm, h0, h1, h2]

theorem decodeCommand_eq_none {w : Word} (h0 : w ≠ 0x00000000#32) (h1 : w ≠ 0x00000001#32) (h2 : w ≠ 0x00000002#32) :
    decodeCommand w = none := by
  simp [decodeCommand, h0, h1, h2]

/-- Settles O38: the three words are evaluated; every other word is none of the table's. -/
theorem commandWordsAreThreeOfThem : Obligations.CommandWordsAreThreeOfThem := by
  refine ⟨rfl, rfl, rfl, fun w h0 h1 h2 => ?_⟩
  simp only [decode, decodeArrival, decodeCommand_eq_none h0 h1 h2]

/-! ## Decoder responses (R82) -/

theorem decodeReason_eq_some {f : BitVec 4} {reason : DecodeReason} :
    decodeReason f = some reason ↔ f = reasonCode reason := by
  unfold decodeReason
  split_ifs with h2 h3 h4 h5
  · cases reason <;> simp [reasonCode, h2]
  · cases reason <;> simp [reasonCode, h3]
  · cases reason <;> simp [reasonCode, h4]
  · cases reason <;> simp [reasonCode, h5]
  · cases reason <;> simp [reasonCode, h2, h3, h4, h5]

/-- R82's mask for `DEC.ERR` leaves out bits 11:8, the `reason` field (R80). -/
theorem decErrMask_getLsbD {i : Nat} (hi : i < 32) : (0xFFFFF0FF#32).getLsbD i = !(decide (8 ≤ i) && decide (i < 12)) := by
  revert i
  decide

/-- A word is its bits outside the `reason` field and the field in its place (R80). -/
theorem masked_or_reasonField (w0 : Word) :
    (w0 &&& 0xFFFFF0FF#32) ||| ((reasonField w0).setWidth 32 <<< 8) = w0 := by
  refine BitVec.eq_of_getLsbD_eq fun i hi => ?_
  rw [BitVec.getLsbD_or, BitVec.getLsbD_and, decErrMask_getLsbD hi, reasonField, BitVec.getLsbD_shiftLeft,
    BitVec.getLsbD_setWidth, BitVec.getLsbD_extractLsb']
  by_cases hlow : i < 8
  · simp [hlow]
  by_cases hfield : i < 12
  · have hback : 8 + (i - 8) = i := by omega
    have hin : i - 8 < 4 := by omega
    have hword : i - 8 < 32 := by omega
    simp [hi, hlow, hfield, hback, hin, hword]
  · have hout : ¬i - 8 < 4 := by omega
    simp [hlow, hfield, hout]

/-- The word 0 of `DEC.ERR` with a reason (R82, R102). -/
def decErrWord (reason : DecodeReason) : Word := 0x00000011#32 ||| ((reasonCode reason).setWidth 32 <<< 8)

theorem encode_decErr (reason : DecodeReason) :
    encode (.decErr reason) = .arrival (.response (decErrWord reason) 0 0 []) := rfl

theorem decodeResponse_decErrWord (reason : DecodeReason) (w1 w2 : Word) (buf : List Byte) :
    decodeResponse (decErrWord reason) w1 w2 buf = .ok (.decErr reason) := by
  cases reason <;> rfl

/-- Everything a Decoder word 0 can be: `DEC.OK`, `DEC.ERR` with an assigned reason, `DEC.NOMEM`, or reserved. -/
theorem decodeResponse_cases (w0 w1 w2 : Word) (buf : List Byte) :
    (w0 = 0x00000010#32 ∧ decodeResponse w0 w1 w2 buf = .ok (.decOk w1 w2 buf)) ∨
    (∃ reason, w0 = decErrWord reason ∧ decodeResponse w0 w1 w2 buf = .ok (.decErr reason)) ∨
    (w0 = 0x00000012#32 ∧ decodeResponse w0 w1 w2 buf = .ok .decNomem) ∨
    decodeResponse w0 w1 w2 buf = .reject (.reservedResponse w0) := by
  unfold decodeResponse
  split_ifs with hok herr hnomem
  · exact .inl ⟨hok, rfl⟩
  · cases hr : decodeReason (reasonField w0) with
    | none => exact .inr (.inr (.inr rfl))
    | some reason =>
      have hw : w0 = decErrWord reason := by
        rw [decErrWord, ← decodeReason_eq_some.mp hr, ← herr, masked_or_reasonField]
      exact .inr (.inl ⟨reason, hw, rfl⟩)
  · exact .inr (.inr (.inl ⟨hnomem, rfl⟩))
  · exact .inr (.inr (.inr rfl))

/-- Settles O39: the six words are evaluated; a word 0 that decodes is one of them. -/
theorem responseWordsAreSixOfThem : Obligations.ResponseWordsAreSixOfThem := by
  intro w1 w2 buf
  refine ⟨rfl, rfl, rfl, rfl, rfl, rfl, fun w0 hok h2 h3 h4 h5 hnomem => ?_⟩
  obtain ⟨h, -⟩ | ⟨reason, h, -⟩ | ⟨h, -⟩ | h := decodeResponse_cases w0 w1 w2 buf
  · exact absurd h hok
  · cases reason with
    | malformedHeader => exact absurd h h2
    | truncatedData => exact absurd h h3
    | unsupportedFeature => exact absurd h h4
    | internalDecodeFailure => exact absurd h h5
  · exact absurd h hnomem
  · exact h

/-! ## Decoding and encoding -/

/-- A well-formed operation is what its own words decode to: the one operand that R83 restricts is a register offset. -/
theorem decode_encode {i : Instr} (h : i.wellFormed = true) : decode (encode i) = .ok i := by
  cases i with
  | regrd off | regwr off v =>
    have hoff : off % 4 = 0 := by simpa [Instr.wellFormed] using h
    simp [encode, decode, decodeArrival, hoff]
  | decErr reason => exact decodeResponse_decErrWord reason 0 0 []
  | nop | process | release | dstrd off | decOk aw ah buf | decNomem | vdim | cdim | alloc allocOk | packpx | finish
    | reset => rfl

/-- An arrival that decodes is the encoding of what it decodes to, up to the words of a one-word response, which are not
read (R85, log 16). -/
theorem encode_of_decode_arrival {a : Arrival} {i : Instr} (h : decode (.arrival a) = .ok i) :
    encode i = .arrival a ∨
    ∃ w0 w1 w2 buf, a = .response w0 w1 w2 buf ∧ w0 ≠ 0x00000010#32 ∧ encode i = .arrival (.response w0 0 0 []) := by
  cases a with
  | command w =>
    simp only [decode, decodeArrival] at h
    split at h
    · rename_i c hc
      cases h
      exact .inl (decodeCommand_eq_some.mp hc)
    · cases h
  | response w0 w1 w2 buf =>
    rw [decode, decodeArrival] at h
    obtain ⟨hw, hd⟩ | ⟨reason, hw, hd⟩ | ⟨hw, hd⟩ | hd := decodeResponse_cases w0 w1 w2 buf
    · cases hd.symm.trans h
      exact .inl (by rw [encode, hw])
    · cases hd.symm.trans h
      exact .inr ⟨w0, w1, w2, buf, rfl, by rw [hw]; cases reason <;> decide, by rw [encode_decErr, hw]⟩
    · cases hd.symm.trans h
      exact .inr ⟨w0, w1, w2, buf, rfl, by rw [hw]; decide, by rw [encode, hw]⟩
    · cases hd.symm.trans h
  | readReg off | writeReg off v =>
    simp only [decode, decodeArrival] at h
    split_ifs at h
    cases h
    exact .inl rfl
  | readDst off | resetLine =>
    cases h
    exact .inl rfl

/-- Settles O41, by the operation in one direction and by the door in the other. -/
theorem decodeAndEncodeAgree : Obligations.DecodeAndEncodeAgree :=
  ⟨fun _ => decode_encode, fun _ _ => encode_of_decode_arrival⟩

/-- Settles O42 by evaluating the decoder. -/
theorem writtenWordsDecode : Obligations.WrittenWordsDecode := by
  unfold Obligations.WrittenWordsDecode
  decide

/-! ## Codes (R76, R77) -/

theorem phaseCode_injective {p q : Phase} (h : phaseCode p = phaseCode q) : p = q := by
  revert h
  cases p <;> cases q <;> decide

theorem errCode_injective {k l : ErrKind} (h : errCode k = errCode l) : k = l := by
  revert h
  cases k <;> cases l <;> decide

theorem errCode_kindOfReason (reason : DecodeReason) : errCode (kindOfReason reason) = reasonCode reason := by
  cases reason <;> rfl

/-- Settles O37: each code is evaluated, and no two are alike. -/
theorem codesOfPhasesAndKinds : Obligations.CodesOfPhasesAndKinds :=
  ⟨rfl, rfl, rfl, rfl, rfl, rfl, rfl, rfl, rfl, rfl, rfl, rfl, rfl, rfl, rfl, errCode_kindOfReason,
    fun _ _ => phaseCode_injective, fun _ _ => errCode_injective⟩

end Sys2Proof.Machine

/-! PROOF. The Engine's selection (R84) and its turn: the operation selected, and the draw that `ALLOC` takes (R121). -/

namespace Sys2Proof.Machine

variable {b : Block} {s u : State} {allocOk : Bool}

/-- What the selecting state selects in `Pack`, by `OUTLEN` and by `IDX` against `EW * EH`. -/
theorem decode_selectorOf_pack (hp : b.phase = .pack) :
    decode (.select (selectorOf b) allocOk) =
      if b.outlen = 0 then .ok (.alloc allocOk)
      else if b.idx.toNat < b.pixels then .ok .packpx
      else if b.idx.toNat = b.pixels then .ok .finish
      else .reject .noOperation := by
  by_cases hlt : b.idx.toNat < b.pixels
  · simp [decode, decodeSelector, selectorOf, hp, phaseCode, hlt]
  by_cases heq : b.idx.toNat = b.pixels
  · simp [decode, decodeSelector, selectorOf, hp, phaseCode, heq]
  · simp [decode, decodeSelector, selectorOf, hp, phaseCode, hlt, heq]

/-- Settles O40: outside `Pack` the phase alone decides, inside it the table of `decode_selectorOf_pack`. -/
theorem engineSelectionByState : Obligations.EngineSelectionByState := by
  refine fun b allocOk => ⟨fun hp => ?_, fun hp => ?_, fun hp ho => ?_, fun hp ho hi => ?_, fun hp ho hi => ?_,
    fun hp => ?_, fun hp ho hi => ?_⟩
  · simp [decode, decodeSelector, selectorOf, hp, phaseCode]
  · simp [decode, decodeSelector, selectorOf, hp, phaseCode]
  · rw [decode_selectorOf_pack hp, if_pos ho]
  · rw [decode_selectorOf_pack hp, if_neg ho, if_pos hi]
  · rw [decode_selectorOf_pack hp, if_neg ho, if_neg hi.not_lt, if_pos hi]
  · cases hb : b.phase <;> simp_all [enginePhase, decode, decodeSelector, selectorOf, phaseCode]
  · rw [decode_selectorOf_pack hp, if_neg ho, if_neg hi.not_gt, if_neg hi.ne']

/-- Where anything but `ALLOC` comes of the selecting state, the block does not wait for a buffer. -/
theorem not_alloc_of_selected {d : Decoded} (h : decode (.select (selectorOf b) allocOk) = d)
    (hd : d ≠ .ok (.alloc allocOk)) : ¬(b.phase = .pack ∧ b.outlen = 0) := by
  rintro ⟨hp, ho⟩
  rw [decode_selectorOf_pack hp, if_pos ho] at h
  exact hd h.symm

/-- A selecting state that selects nothing is rejected by the one name there is for it (R84, last row). -/
theorem decode_select_reject {sel : Selector} {r : Reject} (h : decode (.select sel allocOk) = .reject r) :
    r = .noOperation := by
  simp only [decode, decodeSelector] at h
  split_ifs at h
  · split at h <;> cases h
    rfl
  · cases h
    rfl

/-- A draw is consumed exactly where `ALLOC` is selected (R121). -/
theorem asksDraw_selectorOf : asksDraw (selectorOf b) = true ↔ b.phase = .pack ∧ b.outlen = 0 := by
  cases hp : b.phase <;> simp [asksDraw, selectorOf, hp, phaseCode]

theorem nextDraw_of_cons {d : Bool} {ds : List Bool} (h : u.env.draws = d :: ds) : nextDraw u.env = d := by
  simp [nextDraw, h]

/-- With no draw listed the answer is the free value (log 3). -/
theorem nextDraw_of_nil (h : u.env.draws = []) : nextDraw u.env = Config.allocDraw u.env.allocCount := by
  simp [nextDraw, h]

/-- With no draw listed there is none to take. -/
theorem withDrawsTail_of_nil (h : u.env.draws = []) : u.withEnv { u.env with draws := u.env.draws.tail } = u := by
  rw [h, List.tail_nil, ← h]
  rfl

/-- The Engine has the turn, and `u` is the state without it (log 2). -/
def EngineTurn (s u : State) : Prop :=
  (s.env.agenda = [] ∧ u = s) ∨ ∃ rest, s.env.agenda = .engine :: rest ∧ u = s.withAgenda rest

theorem EngineTurn.block (h : EngineTurn s u) : u.block = s.block := by
  obtain ⟨-, rfl⟩ | ⟨rest, -, rfl⟩ := h <;> rfl

theorem EngineTurn.draws (h : EngineTurn s u) : u.env.draws = s.env.draws := by
  obtain ⟨-, rfl⟩ | ⟨rest, -, rfl⟩ := h <;> rfl

theorem EngineTurn.allocCount (h : EngineTurn s u) : u.env.allocCount = s.env.allocCount := by
  obtain ⟨-, rfl⟩ | ⟨rest, -, rfl⟩ := h <;> rfl

/-- Where `ALLOC` is selected, the turn's message carries the next draw, and the draw is taken. -/
theorem EngineTurn.step_alloc (h : EngineTurn s u) (hp : s.block.phase = .pack) (ho : s.block.outlen = 0) :
    step s = exec (.alloc (nextDraw u.env)) (u.withEnv { u.env with draws := u.env.draws.tail }) := by
  have hu := h.block
  have ha : asksDraw (selectorOf u.block) = true := asksDraw_selectorOf.mpr (by rw [hu]; exact ⟨hp, ho⟩)
  have hd : decode (.select (selectorOf u.block) (nextDraw u.env)) = .ok (.alloc (nextDraw u.env)) := by
    rw [hu, decode_selectorOf_pack hp, if_pos ho]
  simp only [step, fetch_engine h, engineMessage, ha, if_true, hd]

/-- Where no draw is consumed, the turn's message is the selecting state alone. -/
theorem EngineTurn.fetch_of_not_alloc (h : EngineTurn s u) (hn : ¬(s.block.phase = .pack ∧ s.block.outlen = 0)) :
    fetch s = (.select (selectorOf s.block) false, u) := by
  rw [← h.block] at hn ⊢
  simp only [fetch_engine h, engineMessage, Bool.eq_false_of_not_eq_true (mt asksDraw_selectorOf.mp hn),
    Bool.false_eq_true, if_false]

/-- Settles O44, by whether the selecting state selects `ALLOC`. -/
theorem stepPerformsTheEnginesOperation : Obligations.StepPerformsTheEnginesOperation := by
  intro s u (h : EngineTurn s u)
  refine ⟨fun i hi hn => ?_, fun d ds hp ho hds => ?_, fun hp ho hds => ?_, fun r hr => ?_⟩
  · have hna := not_alloc_of_selected hi fun e => hn false (Decoded.ok.inj e)
    simp only [step, h.fetch_of_not_alloc hna, hi]
  · rw [← h.draws] at hds
    rw [h.step_alloc hp ho, nextDraw_of_cons hds, hds]
    rfl
  · rw [← h.draws] at hds
    rw [h.step_alloc hp ho, nextDraw_of_nil hds, h.allocCount, withDrawsTail_of_nil hds]
  · have hna := not_alloc_of_selected hr nofun
    simp only [step, h.fetch_of_not_alloc hna, hr, decode_select_reject hr, onReject, drop]

end Sys2Proof.Machine

/-! PROOF. Inputs that change nothing or are refused: reserved words (R87), operations out of phase (R88), misaligned register
accesses (R83). -/

namespace Sys2Proof.Machine

/-- Settles O13: `exec` refuses the access, and the decoder rejects it before that. -/
theorem misalignedRegisterAccessIsRefused : Obligations.MisalignedRegisterAccessIsRefused := by
  intro s off h
  refine ⟨execRegrd_refused.mpr ⟨h, rfl⟩, fun v => execRegwr_refused.mpr ⟨h, rfl⟩, fun rest hs => ?_, fun v rest hs => ?_⟩
  · exact step_arrival_of_reject hs (if_neg h)
  · exact step_arrival_of_reject hs (if_neg h)

/-- Settles O20. -/
theorem decOkOutsideDecodeIsDroppedWhateverItsLength : Obligations.DecOkOutsideDecodeIsDroppedWhateverItsLength :=
  fun _ _ _ _ h => if_neg h

/-- Settles O45: the reserved words by the words that are assigned, the rest by what each operation can do. -/
theorem reservedAndUntimelyInputsAreDropped : Obligations.ReservedAndUntimelyInputsAreDropped := by
  refine ⟨fun s w rest hs h0 h1 h2 => ?_, fun s w0 w1 w2 buf rest hs hok h2 h3 h4 h5 hnomem => ?_, fun s hp => ?_,
    fun s hd hf => ?_, fun s hp => ⟨fun aw ah buf _ => ?_, fun reason => ?_, ?_⟩, fun s v hp => ⟨?_, ?_⟩,
    fun s v off ha hcmd hew heh => ?_⟩
  · obtain ⟨-, -, -, hreserved⟩ := commandWordsAreThreeOfThem
    exact step_arrival_of_reject hs (hreserved w h0 h1 h2)
  · obtain ⟨-, -, -, -, -, -, hreserved⟩ := responseWordsAreSixOfThem w1 w2 buf
    exact step_arrival_of_reject hs (hreserved w0 hok h2 h3 h4 h5 hnomem)
  · exact execProcess_next.mpr (.inr ⟨hp, rfl⟩)
  · exact execRelease_next.mpr (.inr ⟨hd, hf, rfl⟩)
  · exact decOkOutsideDecodeIsDroppedWhateverItsLength s aw ah buf hp
  · exact execDecErr_next.mpr (.inr ⟨hp, rfl⟩)
  · exact execDecNomem_next.mpr (.inr ⟨hp, rfl⟩)
  · exact execRegwr_next.mpr (.inr (.inr (.inr (by simp [hp]))))
  · exact execRegwr_next.mpr (.inr (.inr (.inr (by simp [hp]))))
  · exact execRegwr_next.mpr (.inr (.inr (.inr (by simp [ha, hcmd, hew, heh]))))

end Sys2Proof.Machine

/-! PROOF. The Decoder's port: what each response does in `Decode` (R101 to R104), how the phase is entered and left (R100), and
what is dropped elsewhere (R88). -/

namespace Sys2Proof.Machine

section
variable {s : State} {b b' : Block} {d d' : List Byte} {i : Instr}

/-! ## Entering and leaving `Decode` -/

/-- Where the Engine has no enabled operation, its turn changes nothing (log 2, log 18). -/
theorem step_of_not_enginePhase (ha : s.env.agenda = []) (hp : ¬enginePhase s.block.phase) : step s = .next s := by
  obtain ⟨-, -, -, -, -, hnone, -⟩ := engineSelectionByState s.block false
  obtain ⟨-, -, -, hwaits⟩ := stepPerformsTheEnginesOperation s s (.inl ⟨ha, rfl⟩)
  exact hwaits _ (hnone hp)

/-- The one effect that enters `Decode` is that of a `VDIM` that passes. -/
theorem effect_enters_decode (h : Effect b d i b' d') (hp : b.phase ≠ .decode) (hp' : b'.phase = .decode) :
    i = .vdim ∧ legalDims b := by
  cases h with
  | vdimOk _ hl => exact ⟨rfl, hl⟩
  | keep | writeEw | writeEh | allocOk | packpx => exact absurd hp' hp
  | reset | release | process | decOk | decErr | decNomem | vdimFail | cdimOk | cdimFail | allocFail | finish => cases hp'

/-- In `Decode` an operation leaves the block as it is, or is a response or reset: every other effect is of another phase. -/
theorem effect_in_decode (h : Effect b d i b' d') (hp : b.phase = .decode) :
    b' = b ∨ (∃ aw ah buf, i = .decOk aw ah buf) ∨ (∃ reason, i = .decErr reason) ∨ i = .decNomem ∨ i = .reset := by
  cases h with
  | keep => exact .inl rfl
  | decOk aw ah => exact .inr (.inl ⟨aw, ah, _, rfl⟩)
  | decErr reason => exact .inr (.inr (.inl ⟨reason, rfl⟩))
  | decNomem => exact .inr (.inr (.inr (.inl rfl)))
  | reset => exact .inr (.inr (.inr (.inr rfl)))
  | release i hq => simp [hp] at hq
  | process i hq | writeEw v hq | writeEh v hq | vdimOk hq | vdimFail hq | cdimOk hq | cdimFail hq | allocOk draw len value hq
    | allocFail draw hq | packpx r g bl idx hq | finish hq => cases hp.symm.trans hq

end

/-- Settles O49: the Engine has no turn of its own in `Decode`, and the effects say which operations enter and leave it. -/
theorem decodeIsLeftOnlyByAResponseOrReset : Obligations.DecodeIsLeftOnlyByAResponseOrReset := by
  refine ⟨fun p => beq_iff_eq, fun i s t hp h hp' => effect_enters_decode (exec_effect h) hp hp', fun s hp ha => ?_,
    fun i s t hp h hne => (effect_in_decode (exec_effect h) hp).resolve_left hne, ?_, fun s aw ah buf t h => ?_⟩
  · exact step_of_not_enginePhase ha (by simp [hp, enginePhase])
  · obtain ⟨-, -, -, -, hresponses, -, -⟩ := reservedAndUntimelyInputsAreDropped
    exact hresponses
  · obtain ⟨-, -, rfl⟩ | ⟨hp, rfl⟩ := execDecOk_next.mp h
    · exact nofun
    · exact hp

/-! ## The responses in `Decode` -/

/-- Settles O16: the delivered buffer reads back byte by byte. -/
theorem decOkDeliversTheImage : Obligations.DecOkDeliversTheImage := by
  refine ⟨fun aw ah buf => rfl, fun s aw ah buf hp hl => ⟨_, execDecOk_next.mpr (.inl ⟨hp, hl, rfl⟩), rfl, rfl, ?_, ?_, rfl, rfl⟩⟩
  · exact (Memory.ofBytes_length buf).trans hl
  · exact Memory.read_ofBytes buf

/-- The word 0 of `DEC.ERR` with any value in the `reason` field, assigned or not (R80, R102). -/
def reasonWord (f : BitVec 4) : Word := 0x00000011#32 ||| (f.setWidth 32 <<< 8)

theorem decErrWord_eq_reasonWord (reason : DecodeReason) : decErrWord reason = reasonWord (reasonCode reason) := rfl

theorem reasonField_reasonWord (f : BitVec 4) : reasonField (reasonWord f) = f := by
  revert f
  decide

/-- No value of `reason` makes the word that of `DEC.OK` or of `DEC.NOMEM` (R82). -/
theorem reasonWord_ne (f : BitVec 4) : reasonWord f ≠ 0x00000010#32 ∧ reasonWord f ≠ 0x00000012#32 := by
  revert f
  decide

theorem reasonCode_bounds (reason : DecodeReason) : 2 ≤ (reasonCode reason).toNat ∧ (reasonCode reason).toNat ≤ 5 := by
  cases reason <;> decide

/-- A `reason` outside 2 to 5 makes the word reserved (R77, R87). -/
theorem decodeResponse_reasonWord_reserved {f : BitVec 4} (hf : f.toNat < 2 ∨ 5 < f.toNat) (w1 w2 : Word) (buf : List Byte) :
    decodeResponse (reasonWord f) w1 w2 buf = .reject (.reservedResponse (reasonWord f)) := by
  obtain ⟨hok, hnomem⟩ := reasonWord_ne f
  obtain ⟨h, -⟩ | ⟨reason, h, -⟩ | ⟨h, -⟩ | h := decodeResponse_cases (reasonWord f) w1 w2 buf
  · exact absurd h hok
  · have hfield : f = reasonCode reason := by
      rw [← reasonField_reasonWord f, h, decErrWord_eq_reasonWord, reasonField_reasonWord]
    have hbounds := reasonCode_bounds reason
    rw [← hfield] at hbounds
    omega
  · exact absurd h hnomem
  · exact h

/-- A propagated Decoder error shows `FAILED` and never `FATAL` (R20). -/
theorem statusWord_kindOfReason (reason : DecodeReason) : statusWord .failed (kindOfReason reason) = 0x00000026#32 := by
  cases reason <;> rfl

/-- Settles O17: the word, the reserved reasons, and error entry with the kind of the same code. -/
theorem decErrPropagatesTheReason : Obligations.DecErrPropagatesTheReason :=
  ⟨decodeResponse_decErrWord, fun _ w1 w2 buf hf => decodeResponse_reasonWord_reserved hf w1 w2 buf,
    fun _ reason hp => ⟨kindOfReason reason, errCode_kindOfReason reason, execDecErr_next.mpr (.inl ⟨hp, rfl⟩),
      statusWord_kindOfReason reason⟩⟩

/-- Settles O18: error entry in `Decode`, and `STATUS` evaluated for the kind raised. -/
theorem decNomemRaisesAllocationFailure : Obligations.DecNomemRaisesAllocationFailure :=
  ⟨fun _ _ _ => rfl, fun _ hp => ⟨execDecNomem_next.mpr (.inl ⟨hp, rfl⟩), rfl, rfl⟩⟩

theorem legalDim_ne_zero {v : Word} (h : legalDim v) : v ≠ 0 := by
  rintro rfl
  exact absurd h.1 (by decide)

/-- With a dimension 0 the length that `DEC.OK` asks for is 0 (R104). -/
theorem bufferLength_eq_zero {aw ah : Word} (h : aw = 0 ∨ ah = 0) : 3 * aw.toNat * ah.toNat = 0 := by
  rcases h with rfl | rfl <;> simp

/-- Settles O19: a zero dimension passes the length test with an empty buffer, and is then no legal declared dimension. -/
theorem decOkOfTheWrongLengthIsRefused : Obligations.DecOkOfTheWrongLengthIsRefused := by
  refine ⟨fun s aw ah buf hp hl => execDecOk_refused.mpr ⟨hp, hl, rfl⟩, fun s aw ah hp ⟨hew, heh⟩ hzero => ?_⟩
  have hdiffer : ¬(aw = s.block.ew ∧ ah = s.block.eh) := by
    rintro ⟨rfl, rfl⟩
    exact hzero.elim (legalDim_ne_zero hew) (legalDim_ne_zero heh)
  exact ⟨_, _, execDecOk_next.mpr (.inl ⟨hp, (bufferLength_eq_zero hzero).symm, rfl⟩),
    execCdim_next.mpr ⟨rfl, .inr ⟨hdiffer, rfl⟩⟩, rfl, rfl⟩

end Sys2Proof.Machine

/-! PROOF. The data path: quantisation by truncation (R112, R113), the packed word and its lanes (R114, R117), the serialised
bytes (R115), and the range test (R111). -/

namespace Sys2Proof.Machine

/-! ## The values of fields of bits -/

theorem toNat_extractLsb'_eq_div_mod {w : Nat} (x : BitVec w) (start len : Nat) :
    (x.extractLsb' start len).toNat = x.toNat / 2 ^ start % 2 ^ len := by
  rw [BitVec.extractLsb'_toNat, Nat.shiftRight_eq_div_pow]

/-- Two fields side by side are a sum with weights. -/
theorem toNat_append_eq_add {m n : Nat} (x : BitVec m) (y : BitVec n) : (x ++ y).toNat = x.toNat * 2 ^ n + y.toNat := by
  rw [BitVec.toNat_append, ← Nat.shiftLeft_add_eq_or_of_lt y.isLt, Nat.shiftLeft_eq]

/-! ## Quantisation -/

theorem q5_toNat (c : Byte) : (q5 c).toNat = c.toNat / 8 := by
  rw [q5, toNat_extractLsb'_eq_div_mod]
  omega

theorem q6_toNat (c : Byte) : (q6 c).toNat = c.toNat / 4 := by
  rw [q6, toNat_extractLsb'_eq_div_mod]
  omega

/-- Settles O28: the quotients, the shifts as fields of bits, and the six values by evaluation. -/
theorem quantisationTruncates : Obligations.QuantisationTruncates := by
  refine ⟨fun c => ⟨q5_toNat c, BitVec.setWidth_ushiftRight_eq_extractLsb.symm, rfl, Nat.le_of_lt_succ (q5 c).isLt,
    q6_toNat c, BitVec.setWidth_ushiftRight_eq_extractLsb.symm, rfl, Nat.le_of_lt_succ (q6 c).isLt⟩,
    fun c d => ⟨?_, ?_⟩, by decide⟩
  · rw [← BitVec.toNat_inj, q5_toNat, q5_toNat]
  · rw [← BitVec.toNat_inj, q6_toNat, q6_toNat]

/-! ## The terms of the packed word -/

/-- Masking with `0xF8` keeps what truncation by three bits keeps, in place (R112). -/
theorem and_maskHighFive (c : Byte) : c &&& 0xF8#8 = (c >>> 3) <<< 3 :=
  (BitVec.shiftLeft_ushiftRight (x := c) (n := 3)).symm

theorem and_maskHighFive_toNat (c : Byte) : (c &&& 0xF8#8).toNat = c.toNat / 8 * 8 := by
  rw [and_maskHighFive, BitVec.toNat_shiftLeft, BitVec.toNat_ushiftRight, Nat.shiftRight_eq_div_pow, Nat.shiftLeft_eq]
  omega

/-- Masking with `0xFC` keeps what truncation by two bits keeps, in place (R113). -/
theorem and_maskHighSix (c : Byte) : c &&& 0xFC#8 = (c >>> 2) <<< 2 :=
  (BitVec.shiftLeft_ushiftRight (x := c) (n := 2)).symm

theorem and_maskHighSix_toNat (c : Byte) : (c &&& 0xFC#8).toNat = c.toNat / 4 * 4 := by
  rw [and_maskHighSix, BitVec.toNat_shiftLeft, BitVec.toNat_ushiftRight, Nat.shiftRight_eq_div_pow, Nat.shiftLeft_eq]
  omega

theorem redTerm_eq (c : Byte) : ((c.setWidth 16 &&& 0x00F8#16) <<< 8 : Half) = (q5 c).setWidth 16 <<< 11 := by
  have hmask : c.setWidth 16 &&& 0x00F8#16 = (c &&& 0xF8#8).setWidth 16 := by rw [BitVec.setWidth_and]; rfl
  rw [hmask]
  refine BitVec.eq_of_toNat_eq ?_
  simp only [BitVec.toNat_shiftLeft, BitVec.toNat_setWidth, Nat.shiftLeft_eq, and_maskHighFive_toNat, q5_toNat]
  omega

theorem greenTerm_eq (c : Byte) : ((c.setWidth 16 &&& 0x00FC#16) <<< 3 : Half) = (q6 c).setWidth 16 <<< 5 := by
  have hmask : c.setWidth 16 &&& 0x00FC#16 = (c &&& 0xFC#8).setWidth 16 := by rw [BitVec.setWidth_and]; rfl
  rw [hmask]
  refine BitVec.eq_of_toNat_eq ?_
  simp only [BitVec.toNat_shiftLeft, BitVec.toNat_setWidth, Nat.shiftLeft_eq, and_maskHighSix_toNat, q6_toNat]
  omega

theorem blueTerm_eq (c : Byte) : (c.setWidth 16 >>> 3 : Half) = (q5 c).setWidth 16 := by
  refine BitVec.eq_of_toNat_eq ?_
  rw [BitVec.toNat_ushiftRight, BitVec.toNat_setWidth, BitVec.toNat_setWidth, q5_toNat, Nat.shiftRight_eq_div_pow]
  omega

/-! ## The packed word -/

section
variable (r g b : Byte)

/-- The quantised form of R114. -/
theorem pack565_eq_or :
    pack565 r g b = ((q5 r).setWidth 16 <<< 11) ||| ((q6 g).setWidth 16 <<< 5) ||| (q5 b).setWidth 16 := by
  rw [pack565, redTerm_eq, greenTerm_eq, blueTerm_eq]

/-- The concatenation of R114. -/
theorem pack565_eq_append : pack565 r g b = q5 r ++ q6 g ++ q5 b := by
  refine BitVec.eq_of_getLsbD_eq fun i hi => ?_
  rw [getLsbD_three_fields, pack565_eq_or]
  simp only [BitVec.getLsbD_or, BitVec.getLsbD_shiftLeft, BitVec.getLsbD_setWidth, hi, decide_true, Bool.true_and]
  by_cases h5 : i < 5
  · simp [h5, show i < 11 by omega]
  · by_cases h11 : i < 11
    · simp [h5, h11, show i - 5 < 16 by omega, BitVec.getLsbD_of_ge _ i (show 5 ≤ i by omega)]
    · simp [h5, h11, show i - 11 < 16 by omega, BitVec.getLsbD_of_ge _ i (show 5 ≤ i by omega),
        BitVec.getLsbD_of_ge _ (i - 5) (show 6 ≤ i - 5 by omega)]

/-- The sum with weights of R114. -/
theorem pack565_toNat : (pack565 r g b).toNat = r.toNat / 8 * 2048 + g.toNat / 4 * 32 + b.toNat / 8 := by
  have h : (pack565 r g b).toNat = (q5 r ++ q6 g ++ q5 b).toNat := congrArg BitVec.toNat (pack565_eq_append r g b)
  rw [h, toNat_append_eq_add, toNat_append_eq_add, q5_toNat, q6_toNat, q5_toNat]
  omega

/-- The bits that quantisation discards do not matter (R114). -/
theorem pack565_masked : pack565 r g b = pack565 (r &&& 0xF8#8) (g &&& 0xFC#8) (b &&& 0xF8#8) := by
  refine BitVec.eq_of_toNat_eq ?_
  rw [pack565_toNat, pack565_toNat, and_maskHighFive_toNat, and_maskHighSix_toNat, and_maskHighFive_toNat]
  omega

end

/-- Every word is packed from some pixel: the one whose channels are its lanes, shifted back (R114). -/
theorem pack565_surjective (w : Half) : ∃ r g b, pack565 r g b = w := by
  refine ⟨BitVec.ofNat 8 (w.toNat / 2048 * 8), BitVec.ofNat 8 (w.toNat / 32 % 64 * 4), BitVec.ofNat 8 (w.toNat % 32 * 8),
    BitVec.eq_of_toNat_eq ?_⟩
  rw [pack565_toNat, BitVec.toNat_ofNat, BitVec.toNat_ofNat, BitVec.toNat_ofNat]
  omega

theorem pack565_monotone {r g b r' g' b' : Byte} (hr : r.toNat ≤ r'.toNat) (hg : g.toNat ≤ g'.toNat)
    (hb : b.toNat ≤ b'.toNat) : (pack565 r g b).toNat ≤ (pack565 r' g' b').toNat := by
  rw [pack565_toNat, pack565_toNat]
  omega

/-- Settles O29: the definition is the formula, and the seven words by evaluation. -/
theorem pack565IsTheFormula : Obligations.Pack565IsTheFormula :=
  ⟨fun _ _ _ => rfl, by decide⟩

/-- Settles O30, form by form. -/
theorem pack565FormsAgree : Obligations.Pack565FormsAgree := by
  refine ⟨fun c => ⟨redTerm_eq c, greenTerm_eq c, and_maskHighSix c⟩,
    fun r g b => ⟨pack565_eq_or r g b, ?_, pack565_eq_append r g b, pack565_masked r g b⟩, pack565_surjective,
    fun _ _ _ _ _ _ => pack565_monotone⟩
  rw [pack565_toNat, q5_toNat, q6_toNat, q5_toNat]

/-! ## Lanes and serialised bytes -/

/-- Settles O31: each field is a quotient and remainder of the word's sum with weights. -/
theorem lanesOfTheWordAreIndependent : Obligations.LanesOfTheWordAreIndependent := by
  intro r g b
  refine ⟨BitVec.eq_of_toNat_eq ?_, BitVec.eq_of_toNat_eq ?_, BitVec.eq_of_toNat_eq ?_, _, _, rfl,
    BitVec.eq_of_toNat_eq ?_, BitVec.eq_of_toNat_eq ?_, ?_⟩ <;>
  · simp only [toNat_append_eq_add, toNat_extractLsb'_eq_div_mod, pack565_toNat]
    omega

/-- Settles O32: the low byte is the remainder by 256 and the high byte the quotient. -/
theorem serialisationIsLowByteFirst : Obligations.SerialisationIsLowByteFirst := by
  refine ⟨fun w => ⟨_, _, rfl, ?_, ?_⟩, by decide⟩
  · rw [toNat_extractLsb'_eq_div_mod]
    omega
  · rw [toNat_extractLsb'_eq_div_mod]
    omega

/-! ## The range test -/

/-- Settles O33: from `2 ^ 31` up the signed reading is negative, and below it both readings are one number. -/
theorem rangeTestIsTheSameSignedAndUnsigned : Obligations.RangeTestIsTheSameSignedAndUnsigned := by
  intro v
  rw [inRange_iff, BitVec.toInt_eq_toNat_cond]
  split <;> omega

end Sys2Proof.Machine

/-! PROOF. The index of a pixel and its offsets (R116), and that the control arithmetic fits (R118). -/

namespace Sys2Proof.Machine

section
variable {width height x y x' y' idx : Nat}

theorem pixelIndex_lt (hx : x < width) (hy : y < height) : pixelIndex width x y < width * height :=
  calc y * width + x < (y + 1) * width := by rw [Nat.succ_mul]; omega
    _ ≤ height * width := Nat.mul_le_mul_right width hy
    _ = width * height := Nat.mul_comm height width

theorem pixelIndex_mod (hx : x < width) : pixelIndex width x y % width = x := by
  rw [pixelIndex, Nat.mul_add_mod_of_lt hx]

theorem pixelIndex_div (hx : x < width) : pixelIndex width x y / width = y := by
  rw [pixelIndex, Nat.mul_comm, Nat.mul_add_div (by omega), Nat.div_eq_of_lt hx, Nat.add_zero]

theorem pixelIndex_injective (hx : x < width) (hx' : x' < width) (h : pixelIndex width x y = pixelIndex width x' y') :
    x = x' ∧ y = y' :=
  ⟨by rw [← pixelIndex_mod (y := y) hx, h, pixelIndex_mod hx'],
    by rw [← pixelIndex_div (y := y) hx, h, pixelIndex_div hx']⟩

theorem exists_pixelIndex_eq (h : idx < width * height) :
    ∃ x y, x < width ∧ y < height ∧ pixelIndex width x y = idx :=
  ⟨idx % width, idx / width, Nat.mod_lt _ (Nat.pos_of_mul_pos_right (Nat.zero_lt_of_lt h)), Nat.div_lt_of_lt_mul h,
    Nat.div_add_mod' idx width⟩

end

/-- Settles O34: a pixel's column is its index modulo the width and its row the quotient. -/
theorem pixelIndexIsABijection : Obligations.PixelIndexIsABijection :=
  ⟨fun _ => ⟨rfl, rfl⟩, fun _ _ _ => ⟨rfl, rfl⟩, fun _ _ _ _ => pixelIndex_lt, fun _ _ _ _ _ => pixelIndex_injective,
    fun _ _ _ => exists_pixelIndex_eq⟩

/-- Settles O35: everything follows from there being 1 to 65536 pixels. -/
theorem controlArithmeticFits : Obligations.ControlArithmeticFits := by
  intro b hb
  have hpixels := pixels_bounds hb
  omega

end Sys2Proof.Machine

/-! PROOF. The Packer's operations one by one (R120 to R123). -/

namespace Sys2Proof.Machine

variable {s : State}

/-- Where it is enabled and with legal dimensions, a granted `ALLOC` obtains the buffer: its length fits `OUTLEN` and is
not 0 (R118, R121). -/
theorem execAlloc_granted {allocOk : Bool} (hp : s.block.phase = .pack) (ho : s.block.outlen = 0) (hd : legalDims s.block)
    (hg : granted allocOk = true) :
    ∃ len : BitVec 18, len.toNat = 2 * s.block.pixels ∧ len ≠ 0 ∧
      execAlloc allocOk s = .next (s.countAlloc.withBlock
        { s.block with
          outlen := len
          dst := Memory.fresh (2 * s.block.pixels) (Config.freshByte s.env.allocCount)
          idx := 0 }) := by
  obtain ⟨hmin, hmax⟩ := pixels_bounds hd
  have hlen : (BitVec.ofNat 18 (2 * s.block.pixels)).toNat = 2 * s.block.pixels := by
    rw [BitVec.toNat_ofNat]
    omega
  refine ⟨_, hlen, fun h0 => ?_, execAlloc_next.mpr ⟨hp, ho, .inl ⟨hg, _, hlen, rfl⟩⟩⟩
  have : 2 * s.block.pixels = 0 := hlen.symm.trans (congrArg BitVec.toNat h0)
  omega

/-- Where it is enabled and its bytes exist, `PACKPX` converts the pixel: the count of pixels fits `IDX` (R118, R122). -/
theorem execPackpx_in_bounds (hp : s.block.phase = .pack) (ho : s.block.outlen ≠ 0)
    (hi : s.block.idx.toNat < s.block.pixels) (hd : legalDims s.block) (hw : Memory.wf s.block.src)
    (hsrc : 3 * s.block.idx.toNat + 3 ≤ s.block.src.length) (hdst : 2 * s.block.idx.toNat + 2 ≤ s.block.dst.length) :
    ∃ r g b, readPixel s.block.src s.block.idx.toNat = some (r, g, b) ∧
      ∃ idx : BitVec 17, idx.toNat = s.block.idx.toNat + 1 ∧
        execPackpx s = .next (s.withBlock
          { s.block with
            dst := Memory.store s.block.dst (2 * s.block.idx.toNat) (le16 (pack565 r g b)), idx := idx }) := by
  obtain ⟨r, g, b, hpixel⟩ := exists_readPixel hw hsrc
  have hidx : (BitVec.ofNat 17 (s.block.idx.toNat + 1)).toNat = s.block.idx.toNat + 1 := by
    have := (pixels_bounds hd).2
    rw [BitVec.toNat_ofNat]
    omega
  exact ⟨r, g, b, hpixel, _, hidx, execPackpx_next.mpr ⟨hp, ho, hi, hdst, r, g, b, hpixel, _, hidx, rfl⟩⟩

/-- Settles O22. -/
theorem cdimComparesTheDimensions : Obligations.CdimComparesTheDimensions :=
  fun _ hp => ⟨fun ⟨hw, hh⟩ => execCdim_next.mpr ⟨hp, .inl ⟨hw, hh, rfl⟩⟩,
    fun hne => execCdim_next.mpr ⟨hp, .inr ⟨not_and_or.mpr hne, rfl⟩⟩⟩

/-- Settles O23: the granted `ALLOC`, and error entry where the draw of 0 counts. -/
theorem allocObtainsTheBuffer : Obligations.AllocObtainsTheBuffer := by
  refine fun s hp ho hd => ⟨?_, ?_⟩
  · obtain ⟨len, hlen, hne, hx⟩ := execAlloc_granted hp ho hd (allocOk := true) rfl
    exact ⟨_, hx, hlen, Memory.fresh_wf _ _, (Memory.fresh_length _ _).trans hlen.symm, hne, rfl, rfl⟩
  · cases hfail : Config.allocCanFail with
    | false => exact .inl rfl
    | true => exact .inr (execAlloc_next.mpr ⟨hp, ho, .inr ⟨granted_eq_false.mpr ⟨rfl, hfail⟩, rfl⟩⟩)

/-- Settles O24: the draw counts only through `granted`, which ignores it where allocation cannot fail. -/
theorem allocCannotBeDeniedWhereItCannotFail : Obligations.AllocCannotBeDeniedWhereItCannotFail := by
  intro s
  cases hfail : Config.allocCanFail with
  | true => exact .inl rfl
  | false =>
    have hgranted : granted false = granted true := by simp [granted, hfail]
    exact .inr (by simp only [exec, execAlloc, hgranted])

/-- Settles O25: the two stored bytes read back, and the store leaves every other offset alone. -/
theorem packpxConvertsOnePixel : Obligations.PackpxConvertsOnePixel := by
  intro s hp ho hi hd hsrc hsrcLen hdst hdstLen hout
  have hroom : 2 * s.block.idx.toNat + 2 ≤ s.block.dst.length := by omega
  obtain ⟨r, g, b, hpixel, idx, hidx, hx⟩ := execPackpx_in_bounds hp ho hi hd hsrc (by omega) hroom
  obtain ⟨hr, hg, hb⟩ := (sourcePixelIsRedGreenBlue _ _ _ _ _).mp hpixel
  obtain ⟨hlo, hhi⟩ := Memory.readBytes_two.mp (Memory.readBytes_store_two hdst _ _ hroom)
  refine ⟨r, g, b, _, hr, hg, hb, hx, hlo, hhi, fun a hne hne' => Memory.read_store_other _ _ ?_, hidx, rfl, rfl⟩
  simp only [dstOff, Config.bppDst] at hne hne'
  simp only [le16, List.length_cons, List.length_nil]
  omega

/-- Settles O26. -/
theorem finishReleasesTheImage : Obligations.FinishReleasesTheImage :=
  fun _ hp ho hi => ⟨execFinish_next.mpr ⟨hp, ho, hi, rfl⟩, rfl⟩

end Sys2Proof.Machine

/-! PROOF. The Packer's run: `CDIM`, `ALLOC`, one `PACKPX` per pixel, `FINISH` (R124), and that its result depends on nothing but
the dimensions and the delivered bytes (R125). -/

namespace Sys2Proof.Machine

/-! ## The Engine's steps -/

/-- Two states of one call: the declared dimensions and the delivered bytes are the same. -/
structure SameCall (s t : State) : Prop where
  ew : t.block.ew = s.block.ew
  eh : t.block.eh = s.block.eh
  delivered : t.env.delivered = s.env.delivered

section
variable {s t u : State}

theorem SameCall.trans (h : SameCall s t) (h' : SameCall t u) : SameCall s u :=
  ⟨h'.ew.trans h.ew, h'.eh.trans h.eh, h'.delivered.trans h.delivered⟩

theorem SameCall.pixels (h : SameCall s t) : t.block.pixels = s.block.pixels := by
  rw [Block.pixels, h.ew, h.eh, Block.pixels]

/-- With no turn to come the Engine performs what the state selects, if that takes no draw. -/
theorem step_of_selected {i : Instr} (ha : s.env.agenda = []) (hi : decode (.select (selectorOf s.block) false) = .ok i)
    (hn : ∀ allocOk, i ≠ .alloc allocOk) : step s = exec i s := by
  obtain ⟨hperforms, -⟩ := stepPerformsTheEnginesOperation s s (.inl ⟨ha, rfl⟩)
  exact hperforms i hi hn

theorem step_cdim_matched (ha : s.env.agenda = []) (hp : s.block.phase = .checkDimensions) (hw : s.block.aw = s.block.ew)
    (hh : s.block.ah = s.block.eh) : step s = .next (s.withBlock { s.block with phase := .pack }) := by
  obtain ⟨-, hselects, -⟩ := engineSelectionByState s.block false
  rw [step_of_selected ha (hselects hp) nofun]
  exact execCdim_next.mpr ⟨hp, .inl ⟨hw, hh, rfl⟩⟩

theorem step_alloc_granted {ds : List Bool} (ha : s.env.agenda = []) (hd : s.env.draws = true :: ds)
    (hp : s.block.phase = .pack) (ho : s.block.outlen = 0) (hl : legalDims s.block) :
    ∃ t, step s = .next t ∧ t.block.phase = .pack ∧ t.block.outlen ≠ 0 ∧ t.block.idx = 0 ∧ SameCall s t := by
  obtain ⟨-, htakes, -⟩ := stepPerformsTheEnginesOperation s s (.inl ⟨ha, rfl⟩)
  obtain ⟨len, -, hne, hx⟩ := execAlloc_granted (s := s.withEnv { s.env with draws := ds }) hp ho hl (allocOk := true) rfl
  exact ⟨_, (htakes true ds hp ho hd).trans hx, hp, hne, rfl, rfl, rfl, rfl⟩

theorem step_packpx (hm : MachineInv s) (ha : s.env.agenda = []) (hp : s.block.phase = .pack) (ho : s.block.outlen ≠ 0)
    (hi : s.block.idx.toNat < s.block.pixels) :
    ∃ t, step s = .next t ∧ t.block.phase = .pack ∧ t.block.outlen ≠ 0 ∧ t.block.idx.toNat = s.block.idx.toNat + 1 ∧
      SameCall s t := by
  obtain ⟨-, -, -, hselects, -⟩ := engineSelectionByState s.block false
  obtain ⟨hl, -⟩ := hm.rule27.inv4 hp
  obtain ⟨-, hsrc, -, hdst⟩ := packpx_in_bounds hm.rule27 hp ho hi
  obtain ⟨r, g, b, -, idx, hidx, hx⟩ := execPackpx_in_bounds hp ho hi hl hm.srcWf (by omega) (by omega)
  exact ⟨_, (step_of_selected ha (hselects hp ho hi) nofun).trans hx, hp, ho, hidx, rfl, rfl, rfl⟩

theorem step_finish (ha : s.env.agenda = []) (hp : s.block.phase = .pack) (ho : s.block.outlen ≠ 0)
    (hi : s.block.idx.toNat = s.block.pixels) : step s = .next (s.withBlock { s.block with src := [], phase := .done }) := by
  obtain ⟨-, -, -, -, hselects, -⟩ := engineSelectionByState s.block false
  rw [step_of_selected ha (hselects hp ho hi) nofun]
  exact execFinish_next.mpr ⟨hp, ho, hi, rfl⟩

end

/-! ## The run -/

/-- From the buffer on, one `PACKPX` per pixel that is left and `FINISH`, by induction on the pixels that are left. -/
theorem run_packing {n : Nat} {s : State} (hm : MachineInv s) (ha : s.env.agenda = []) (hp : s.block.phase = .pack)
    (ho : s.block.outlen ≠ 0) (hn : s.block.idx.toNat + n = s.block.pixels) :
    ∃ t, run (n + 1) s = .next t ∧ t.block.phase = .done ∧ SameCall s t := by
  induction n generalizing s with
  | zero => exact ⟨_, run_succ (step_finish ha hp ho hn) rfl, rfl, rfl, rfl, rfl⟩
  | succ n ih =>
    obtain ⟨u, hstep, hp', ho', hi', hcall⟩ := step_packpx hm ha hp ho (by omega)
    obtain ⟨t, hrun, hdone, hcall'⟩ := ih (everyStepKeepsTheInvariant s u hm hstep) (step_agenda ha hstep) hp' ho'
      (by rw [hi', hcall.pixels]; omega)
    exact ⟨t, run_succ hstep hrun, hdone, hcall.trans hcall'⟩

/-- R151's `pack` with a granted draw: `CDIM`, `ALLOC`, and the conversion from pixel 0 on (R124). -/
theorem run_pack {s : State} {ds : List Bool} (hm : MachineInv s) (hp : s.block.phase = .checkDimensions)
    (hw : s.block.aw = s.block.ew) (hh : s.block.ah = s.block.eh) (ha : s.env.agenda = [])
    (hd : s.env.draws = true :: ds) :
    ∃ t, run (s.block.pixels + 3) s = .next t ∧ t.block.phase = .done ∧ SameCall s t := by
  obtain ⟨hl, -, -, ho, -⟩ := hm.rule27.inv3 hp
  have hcdim := step_cdim_matched ha hp hw hh
  have ha₁ := step_agenda ha hcdim
  obtain ⟨u, halloc, hp', ho', hi', hcall⟩ := step_alloc_granted ha₁ hd rfl ho hl
  have hm' := everyStepKeepsTheInvariant _ u (everyStepKeepsTheInvariant s _ hm hcdim) halloc
  obtain ⟨t, hrun, hdone, hcall'⟩ := run_packing hm' (step_agenda ha₁ halloc) hp' ho'
    (n := s.block.pixels) (by rw [hi', hcall.pixels]; exact Nat.zero_add _)
  exact ⟨t, run_succ hcdim (run_succ halloc hrun), hdone, SameCall.trans ⟨hcall.ew, hcall.eh, hcall.delivered⟩ hcall'⟩

/-! ## The packed image -/

/-- A packed pixel in terms of the delivered bytes, byte by byte (R41, R44). -/
theorem pixelPacked_ofBytes {delivered : List Byte} {dst : Memory} {i : Nat} :
    PixelPacked (Memory.ofBytes delivered) dst i ↔
      ∃ r g b, delivered[3 * i]? = some r ∧ delivered[3 * i + 1]? = some g ∧ delivered[3 * i + 2]? = some b ∧
        Memory.read dst (2 * i) = some ((pack565 r g b).extractLsb' 0 8) ∧
        Memory.read dst (2 * i + 1) = some ((pack565 r g b).extractLsb' 8 8) := by
  simp only [PixelPacked, sourcePixelIsRedGreenBlue _ _ _ _ _, Memory.read_ofBytes, le16, Memory.readBytes_two, and_assoc]
  rfl

/-- Settles O56: the run ends in `Done`, and there the invariant says that every pixel is packed (INV7). -/
theorem packerProducesThePackedImage : Obligations.PackerProducesThePackedImage := by
  intro s ds hm hp hw hh ha hd
  obtain ⟨t, hrun, hdone, hcall⟩ := run_pack hm hp hw hh ha hd
  have hm' := run_keeps_machineInv hrun hm
  obtain ⟨-, -, -, -, -, hout, -, hpacked⟩ := hm'.rule27.inv7 hdone
  obtain ⟨-, -, hlen⟩ := hm'.rule27.withinBounds
  rw [hcall.pixels] at hout hpacked
  rw [hcall.delivered] at hpacked
  exact ⟨t, hrun, hdone, hout, hlen.trans hout,
    fun x y hx hy => pixelPacked_ofBytes.mp (hpacked _ (pixelIndex_lt hx hy))⟩

/-! ## Purity -/

/-- Two spaces with the same offsets, each of them once, and the same byte at every offset are equal. -/
theorem Memory.eq_of_read_eq : ∀ {m m' : Memory}, m.map Prod.fst = m'.map Prod.fst → (m.map Prod.fst).Nodup →
    (∀ a, Memory.read m a = Memory.read m' a) → m = m'
  | [], [], _, _, _ => rfl
  | (k, v) :: m, (k', v') :: m', ho, hn, hread => by
    obtain ⟨rfl, hrest⟩ := List.cons.inj ho
    obtain ⟨hk, hn⟩ : k ∉ m.map Prod.fst ∧ (m.map Prod.fst).Nodup := List.nodup_cons.mp hn
    have hv : v = v' := by simpa [Memory.read] using hread k
    have htail : m = m' := by
      refine Memory.eq_of_read_eq hrest hn fun a => ?_
      by_cases ha : a = k
      · have hk' : k ∉ m'.map Prod.fst := hrest ▸ hk
        rw [← Memory.read_isSome_iff, Option.not_isSome_iff_eq_none] at hk hk'
        rw [ha, hk, hk']
      · simpa [Memory.read, Ne.symm ha] using hread a
    rw [hv, htail]

/-- In canonical form the bytes below the length are the whole space (R40). -/
theorem Memory.eq_of_read_eq_of_wf {m m' : Memory} (h : Memory.wf m) (h' : Memory.wf m') (hl : m.length = m'.length)
    (hread : ∀ a, a < m.length → Memory.read m a = Memory.read m' a) : m = m' := by
  refine Memory.eq_of_read_eq (by rw [h, h', hl]) (by rw [h]; exact List.nodup_range) fun a => ?_
  by_cases ha : a < m.length
  · exact hread a ha
  · rw [Memory.read_eq_none_of_wf h (by omega), Memory.read_eq_none_of_wf h' (by omega)]

/-- The pixel of the source determines its two packed bytes. -/
theorem pixelPacked_read_eq {src dst dst' : Memory} {i : Nat} (h : PixelPacked src dst i) (h' : PixelPacked src dst' i) :
    Memory.read dst (2 * i) = Memory.read dst' (2 * i) ∧ Memory.read dst (2 * i + 1) = Memory.read dst' (2 * i + 1) := by
  obtain ⟨r, g, b, hsrc, hdst⟩ := h
  obtain ⟨r', g', b', hsrc', hdst'⟩ := h'
  rw [hsrc] at hsrc'
  cases hsrc'
  obtain ⟨hlo, hhi⟩ := Memory.readBytes_two.mp hdst
  obtain ⟨hlo', hhi'⟩ := Memory.readBytes_two.mp hdst'
  exact ⟨hlo.trans hlo'.symm, hhi.trans hhi'.symm⟩

/-- In `Done` the dimensions and the delivered bytes determine the packed buffer: its length by `OUTLEN`, each byte by the
pixel it belongs to (INV7, INV12). -/
theorem dst_eq_of_done {t₁ t₂ : State} (hm₁ : MachineInv t₁) (hm₂ : MachineInv t₂) (hp₁ : t₁.block.phase = .done)
    (hp₂ : t₂.block.phase = .done) (hpixels : t₁.block.pixels = t₂.block.pixels)
    (hsrc : Memory.ofBytes t₁.env.delivered = Memory.ofBytes t₂.env.delivered) : t₁.block.dst = t₂.block.dst := by
  obtain ⟨-, -, -, -, -, hout₁, -, hpacked₁⟩ := hm₁.rule27.inv7 hp₁
  obtain ⟨-, -, -, -, -, hout₂, -, hpacked₂⟩ := hm₂.rule27.inv7 hp₂
  obtain ⟨-, -, hlen₁⟩ := hm₁.rule27.withinBounds
  obtain ⟨-, -, hlen₂⟩ := hm₂.rule27.withinBounds
  refine Memory.eq_of_read_eq_of_wf hm₁.dstWf hm₂.dstWf (by omega) fun a ha => ?_
  have hi : a / 2 < t₁.block.pixels := by omega
  obtain ⟨hlo, hhi⟩ := pixelPacked_read_eq (hpacked₁ _ hi) (hsrc ▸ hpacked₂ _ (hpixels ▸ hi))
  obtain h | h : a = 2 * (a / 2) ∨ a = 2 * (a / 2) + 1 := by omega
  · rw [h, hlo]
  · rw [h, hhi]

/-- Settles O57: both runs end in `Done`, in the call each began with. -/
theorem packerIsPure : Obligations.PackerIsPure := by
  intro s₁ s₂ ds₁ ds₂ t₁ t₂ hm₁ hm₂ hp₁ hp₂ hew heh haw hah hw hh hsrc ha₁ ha₂ hd₁ hd₂ hrun₁ hrun₂
  obtain ⟨u₁, hrun₁', hdone₁, hcall₁⟩ := run_pack hm₁ hp₁ hw hh ha₁ hd₁
  obtain ⟨u₂, hrun₂', hdone₂, hcall₂⟩ := run_pack hm₂ hp₂ (haw ▸ hew ▸ hw) (hah ▸ heh ▸ hh) ha₂ hd₂
  obtain rfl : u₁ = t₁ := Host.Outcome.next.inj (hrun₁'.symm.trans hrun₁)
  obtain rfl : u₂ = t₂ := Host.Outcome.next.inj (hrun₂'.symm.trans hrun₂)
  refine dst_eq_of_done (run_keeps_machineInv hrun₁ hm₁) (run_keeps_machineInv hrun₂ hm₂) hdone₁ hdone₂ ?_ ?_
  · rw [hcall₁.pixels, hcall₂.pixels, Block.pixels, hew, heh, Block.pixels]
  · rw [hcall₁.delivered, hcall₂.delivered, ← hm₁.srcDelivered (.inl hp₁), ← hm₂.srcDelivered (.inl hp₂), hsrc]

end Sys2Proof.Machine

/-! PROOF. The Host's commands and accesses (R141 to R150): which word each is, what it does and what it leaves unchanged. -/

namespace Sys2Proof.Machine

/-! ## Commands -/

/-- Settles O7. -/
theorem nopChangesNothing : Obligations.NopChangesNothing :=
  ⟨rfl, fun _ => execNop_next.mpr rfl⟩

section
variable {b b' : Block} {d d' : List Byte} {i : Instr}

/-- Only a write in `Start`, `RELEASE` and reset touch `EW` and `EH`, and the last two return to `Start` (R141). -/
theorem effect_keeps_declared (h : Effect b d i b' d') (hp : b.phase ≠ .start) (hp' : b'.phase ≠ .start) :
    b'.ew = b.ew ∧ b'.eh = b.eh := by
  cases h with
  | reset | release => exact absurd rfl hp'
  | writeEw v hq | writeEh v hq => exact absurd hq hp
  | keep | process | decOk | decErr | decNomem | vdimOk | vdimFail | cdimOk | cdimFail | allocOk | allocFail | packpx
    | finish => exact ⟨rfl, rfl⟩

/-- An effect out of `Done` or `Failed` keeps the block or resets it: every other effect is of another phase (R142). -/
theorem effect_after_end (h : Effect b d i b' d') (hp : b.phase = .done ∨ b.phase = .failed) :
    b' = b ∨ b' = Block.reset := by
  cases h with
  | keep => exact .inl rfl
  | reset | release => exact .inr rfl
  | process i hq | writeEw v hq | writeEh v hq | decOk aw ah buf hq | decErr reason hq | decNomem hq | vdimOk hq
    | vdimFail hq | cdimOk hq | cdimFail hq | allocOk draw len value hq | allocFail draw hq | packpx r g bl idx hq
    | finish hq => simp [hq] at hp

end

/-- Settles O8: the two branches of `PROCESS`, and the effects that touch `EW` and `EH`. -/
theorem processStartsACall : Obligations.ProcessStartsACall := by
  refine ⟨rfl, fun s hp => execProcess_next.mpr (.inl ⟨hp, rfl⟩), fun s hp => execProcess_next.mpr (.inr ⟨hp, rfl⟩),
    fun s t hp h => ?_, fun i s t hp h hp' => effect_keeps_declared (exec_effect h) hp hp'⟩
  obtain ⟨-, rfl⟩ | ⟨hne, -⟩ := execProcess_next.mp h
  · rfl
  · exact absurd hp hne

/-- Settles O9: the two branches of `RELEASE`, and the effects out of the two end phases. -/
theorem releaseRestoresTheResetState : Obligations.ReleaseRestoresTheResetState := by
  have releases : ∀ s : State, s.block.phase = .done ∨ s.block.phase = .failed →
      exec .release s = .next (s.withBlock Block.reset) := fun s hp => execRelease_next.mpr (.inl ⟨hp, rfl⟩)
  refine ⟨rfl, releases, fun s hp t h => ?_, fun s hd hf => execRelease_next.mpr (.inr ⟨hd, hf, rfl⟩),
    fun i s t hp h => ?_⟩
  · obtain rfl := Host.Outcome.next.inj ((releases s hp).symm.trans h)
    exact ⟨rfl, show statusWord .start .none = 0 by decide⟩
  · obtain hb | hb := effect_after_end (exec_effect h) hp
    · exact .inl (by rw [hb])
    · exact .inr (by rw [hb]; rfl)

/-! ## Accesses -/

/-- From `0x24` up no register is mapped (R22). -/
theorem regRead_unmapped {off : Nat} (b : Block) (h : 0x24 ≤ off) : regRead b off = 0 := by
  unfold regRead
  rw [if_neg, if_neg, if_neg, if_neg, if_neg, if_neg, if_neg, if_neg] <;> omega

/-- Settles O10, register by register. -/
theorem regrdReturnsTheRegisterMap : Obligations.RegrdReturnsTheRegisterMap := by
  refine fun s off h4 => ⟨regRead s.block off, execRegrd_next.mpr ⟨h4, rfl⟩, ?_, ?_, ?_, ?_, ?_, ?_, ?_, ?_, ?_,
    regRead_unmapped s.block⟩
  · rintro rfl; rfl
  · rintro rfl; rfl
  · rintro rfl; exact BitVec.toNat_setWidth_of_le (show 4 ≤ 32 by decide)
  · rintro rfl; rfl
  · rintro rfl; rfl
  · rintro rfl; rfl
  · rintro rfl; rfl
  · rintro rfl; exact BitVec.toNat_setWidth_of_le (show 17 ≤ 32 by decide)
  · rintro rfl; exact BitVec.toNat_setWidth_of_le (show 18 ≤ 32 by decide)

/-- Settles O11: a write to `CMD` by its word, the two writable registers in `Start`, and the drops (R87, R88). -/
theorem regwrWritesOnlyWhatTheHostMayWrite : Obligations.RegwrWritesOnlyWhatTheHostMayWrite := by
  obtain ⟨-, -, -, -, -, hfrozen, hother⟩ := reservedAndUntimelyInputsAreDropped
  refine fun s v => ⟨rfl, rfl, rfl, fun h0 h1 h2 => ?_, fun hp => ⟨?_, ?_⟩, hfrozen s v, hother s v⟩
  · exact execRegwr_next.mpr (.inl ⟨rfl, issueCommand_next.mpr (.inr (.inr ⟨h1, h2, rfl⟩))⟩)
  · exact execRegwr_next.mpr (.inr (.inl ⟨rfl, hp, rfl⟩))
  · exact execRegwr_next.mpr (.inr (.inr (.inl ⟨rfl, hp, rfl⟩)))

/-- Settles O12: below the length of a space in canonical form the byte exists. -/
theorem dstrdReadsOneByteInDone : Obligations.DstrdReadsOneByteInDone := by
  refine ⟨fun s off hp hlt hw hlen => ?_, fun s off h => execDstrd_refused.mpr ⟨h, rfl⟩⟩
  obtain ⟨b, hb⟩ := Memory.exists_read_of_wf hw (hlen ▸ hlt)
  exact ⟨b, hb, execDstrd_next.mpr ⟨hp, hlt, b, hb, rfl⟩⟩

end Sys2Proof.Machine

/-! PROOF. The movement of `PHASE` (R140), and that nothing is decoded or allocated before the dimensions are validated
(R144, R145). -/

namespace Sys2Proof.Machine

/-! ## The graph -/

section
variable {s t : State} {b b' : Block} {d d' : List Byte} {i : Instr}

/-- Every effect keeps `PHASE` or takes an edge of the graph, if a failing `ALLOC` is one whose draw is 0. -/
theorem effect_phase_edge (h : Effect b d i b' d')
    (hdenied : ∀ draw, i = .alloc draw → b.phase = .pack → b'.phase = .failed → draw = false) :
    b'.phase = b.phase ∨ PhaseEdge i b.phase b'.phase := by
  cases h with
  | keep | writeEw | writeEh | allocOk | packpx => exact .inl rfl
  | reset => exact .inr (.reset _)
  | release i hp hi =>
    right
    obtain hp | hp := hp <;> rw [hp] <;> obtain rfl | rfl := hi
    · exact .releaseDone
    · exact .writeReleaseDone
    · exact .releaseFailed
    · exact .writeReleaseFailed
  | process i hp hi =>
    right
    rw [hp]
    obtain rfl | rfl := hi
    · exact .process
    · exact .writeProcess
  | decOk aw ah buf hp => exact .inr (hp ▸ .decOk aw ah _)
  | decErr reason hp => exact .inr (hp ▸ .decErr reason)
  | decNomem hp => exact .inr (hp ▸ .decNomem)
  | vdimOk hp => exact .inr (hp ▸ .vdimOk)
  | vdimFail hp => exact .inr (hp ▸ .vdimFail)
  | cdimOk hp => exact .inr (hp ▸ .cdimOk)
  | cdimFail hp => exact .inr (hp ▸ .cdimFail)
  | allocFail draw hp =>
    obtain rfl := hdenied draw rfl hp rfl
    exact .inr (hp ▸ .allocDenied)
  | finish hp => exact .inr (hp ▸ .finish)

/-- An `ALLOC` that fails had the draw 0 (R121). -/
theorem draw_of_alloc_failed {draw : Bool} (h : exec (.alloc draw) s = .next t) (hp' : t.block.phase = .failed) :
    draw = false := by
  obtain ⟨hp, -, ⟨-, len, -, rfl⟩ | ⟨hg, -⟩⟩ := execAlloc_next.mp h
  · cases hp.symm.trans hp'
  · exact (granted_eq_false.mp hg).1

/-- What moves inside `Pack`: `ALLOC` starts the count of pixels, and `PACKPX` raises it by one. -/
theorem effect_inside_pack (h : Effect b d i b' d') (hp : b.phase = .pack) (hp' : b'.phase = .pack) :
    b' = b ∨
    ((∃ ok, i = .alloc ok) ∧ b.outlen = 0 ∧ b'.outlen.toNat = 2 * b.pixels ∧ b'.idx = 0) ∨
    (i = .packpx ∧ b.outlen ≠ 0 ∧ b.idx.toNat < b.pixels ∧ b'.outlen = b.outlen ∧ b'.idx.toNat = b.idx.toNat + 1) := by
  cases h with
  | keep => exact .inl rfl
  | allocOk draw len value _ ho hlen => exact .inr (.inl ⟨⟨draw, rfl⟩, ho, hlen, rfl⟩)
  | packpx r g bl idx _ ho hi _ _ hidx => exact .inr (.inr ⟨rfl, ho, hi, rfl, hidx⟩)
  | writeEw v hq | writeEh v hq | cdimOk hq => cases hp.symm.trans hq
  | reset | release | process | decOk | decErr | decNomem | vdimOk | vdimFail | cdimFail | allocFail | finish => cases hp'

end

/-- Settles O48, by the effect of the operation. -/
theorem phaseMovesAlongTheGraph : Obligations.PhaseMovesAlongTheGraph := by
  refine ⟨fun i s t h => effect_phase_edge (exec_effect h) fun draw hi _ hp' => ?_,
    fun i s t hp h hp' => effect_inside_pack (exec_effect h) hp hp', fun s t h => ?_⟩
  · exact draw_of_alloc_failed (hi ▸ h) hp'
  · obtain ⟨-, ho, hi, -⟩ := execFinish_next.mp h
    exact ⟨ho, hi⟩

/-! ## Validation -/

section
variable {s : State}

theorem execVdim_legal (hp : s.block.phase = .validateDimensions) (hl : legalDims s.block) :
    execVdim s = .next (s.withBlock { s.block with phase := .decode }) := by
  obtain ⟨hw, hh⟩ := inRange_both_iff.mpr hl
  exact execVdim_next.mpr ⟨hp, .inl ⟨hw, hh, rfl⟩⟩

theorem execVdim_illegal (hp : s.block.phase = .validateDimensions) (hl : ¬legalDims s.block) :
    execVdim s = .next (s.withBlock (s.block.raise .invalidDimensions)) :=
  execVdim_next.mpr ⟨hp, .inr ⟨mt inRange_both_iff.mp hl, rfl⟩⟩

/-- With no turn to come, the Engine's step in `ValidateDimensions` is `VDIM`. -/
theorem step_vdim (ha : s.env.agenda = []) (hp : s.block.phase = .validateDimensions) : step s = execVdim s := by
  obtain ⟨hselects, -⟩ := engineSelectionByState s.block false
  exact step_of_selected ha (hselects hp) nofun

end

/-- Settles O21: the range test is the comparison with 1 and 256. -/
theorem vdimChecksTheRange : Obligations.VdimChecksTheRange :=
  fun _ hp => ⟨fun hl => ⟨execVdim_legal hp hl, rfl⟩, execVdim_illegal hp⟩

/-- Settles O50: before `VDIM` passes INV1 holds, and error entry leaves the buffers as empty as they were. -/
theorem invalidDimensionsBeforeAnyWork : Obligations.InvalidDimensionsBeforeAnyWork := by
  refine ⟨fun s hm hp => ⟨?_, hm.rule27.inv1 hp⟩, fun hl => absurd hl.1.1 (by decide), fun s hm hp ha hl => ?_⟩
  · obtain hp | hp := hp <;> rw [hp] <;> rfl
  · have hu := hm.rule27.inv1 (.inl hp)
    have hprocess : step s = .next ((s.withAgenda []).withBlock { s.block with phase := .validateDimensions }) :=
      (step_arrival_of_ok ha rfl).trans (execProcess_next.mpr (.inl ⟨hp, rfl⟩))
    refine ⟨_, _, hprocess, (step_vdim rfl rfl).trans (execVdim_illegal rfl hl), rfl, rfl, ?_⟩
    rintro v (rfl | rfl | rfl)
    · exact ⟨by rw [hp]; rfl, hu.aw, hu.ah, hu.src, hu.dst, hu.outlen⟩
    · exact ⟨rfl, hu.aw, hu.ah, hu.src, hu.dst, hu.outlen⟩
    · exact ⟨rfl, hu.aw, hu.ah, rfl, rfl, rfl⟩

end Sys2Proof.Machine

/-! PROOF. The Engine is never stuck, and ends a call within the step bound (R152). -/

namespace Sys2Proof.Machine

section
variable {s t u : State}

theorem step_cdim_mismatched (ha : s.env.agenda = []) (hp : s.block.phase = .checkDimensions)
    (hne : ¬(s.block.aw = s.block.ew ∧ s.block.ah = s.block.eh)) :
    step s = .next (s.withBlock (s.block.raise .dimensionMismatch)) := by
  obtain ⟨-, hselects, -⟩ := engineSelectionByState s.block false
  rw [step_of_selected ha (hselects hp) nofun]
  exact execCdim_next.mpr ⟨hp, .inr ⟨hne, rfl⟩⟩

/-- With no turn to come, the Engine's step where it waits for a buffer is `ALLOC` with the next draw (R121). -/
theorem step_alloc (ha : s.env.agenda = []) (hp : s.block.phase = .pack) (ho : s.block.outlen = 0) :
    step s = execAlloc (nextDraw s.env) (s.withEnv { s.env with draws := s.env.draws.tail }) :=
  EngineTurn.step_alloc (.inl ⟨ha, rfl⟩) hp ho

theorem step_alloc_of_granted (ha : s.env.agenda = []) (hp : s.block.phase = .pack) (ho : s.block.outlen = 0)
    (hl : legalDims s.block) (hg : granted (nextDraw s.env) = true) :
    ∃ t, step s = .next t ∧ t.block.phase = .pack ∧ t.block.outlen ≠ 0 ∧ t.block.idx = 0 ∧ SameCall s t := by
  obtain ⟨len, -, hne, hx⟩ :=
    execAlloc_granted (s := s.withEnv { s.env with draws := s.env.draws.tail }) hp ho hl hg
  exact ⟨_, (step_alloc ha hp ho).trans hx, hp, hne, rfl, rfl, rfl, rfl⟩

theorem step_alloc_of_denied (ha : s.env.agenda = []) (hp : s.block.phase = .pack) (ho : s.block.outlen = 0)
    (hg : granted (nextDraw s.env) = false) :
    ∃ t, step s = .next t ∧ t.block = s.block.raise .allocationFailure :=
  ⟨_, (step_alloc ha hp ho).trans (execAlloc_next.mpr ⟨hp, ho, .inr ⟨hg, rfl⟩⟩), rfl⟩

/-- From `Pack` without a buffer yet: a denied `ALLOC` ends the call in one step, a granted one leaves the pixels and
`FINISH`. -/
theorem run_from_alloc (hm : MachineInv s) (ha : s.env.agenda = []) (hp : s.block.phase = .pack) (ho : s.block.outlen = 0) :
    ∃ k t, k ≤ s.block.pixels + 2 ∧ run k s = .next t ∧ (t.block.phase = .done ∨ t.block.phase = .failed) := by
  obtain ⟨hl, -⟩ := hm.rule27.inv4 hp
  cases hg : granted (nextDraw s.env) with
  | false =>
    obtain ⟨t, halloc, ht⟩ := step_alloc_of_denied ha hp ho hg
    exact ⟨1, t, by omega, run_succ halloc rfl, .inr (by rw [ht]; rfl)⟩
  | true =>
    obtain ⟨u, halloc, hp', ho', hi', hcall⟩ := step_alloc_of_granted ha hp ho hl hg
    obtain ⟨t, hrun, hdone, -⟩ := run_packing (everyStepKeepsTheInvariant s u hm halloc) (step_agenda ha halloc) hp' ho'
      (n := s.block.pixels) (by rw [hi', hcall.pixels]; exact Nat.zero_add _)
    exact ⟨_, t, le_rfl, run_succ halloc hrun, .inl hdone⟩

/-- From `CheckDimensions`: a mismatch ends the call in one step, a match leaves `ALLOC` and what follows it. -/
theorem run_from_cdim (hm : MachineInv s) (ha : s.env.agenda = []) (hp : s.block.phase = .checkDimensions) :
    ∃ k t, k ≤ s.block.pixels + 3 ∧ run k s = .next t ∧ (t.block.phase = .done ∨ t.block.phase = .failed) := by
  by_cases heq : s.block.aw = s.block.ew ∧ s.block.ah = s.block.eh
  · have hcdim := step_cdim_matched ha hp heq.1 heq.2
    obtain ⟨-, -, -, ho, -⟩ := hm.rule27.inv3 hp
    obtain ⟨k, t, hk, hrun, hend⟩ :=
      run_from_alloc (everyStepKeepsTheInvariant s _ hm hcdim) (step_agenda ha hcdim) rfl ho
    exact ⟨k + 1, t, Nat.succ_le_succ hk, run_succ hcdim hrun, hend⟩
  · exact ⟨1, _, by omega, run_succ (step_cdim_mismatched ha hp heq) rfl, .inr rfl⟩

end

/-- In each of the Engine's phases R27 leaves no state without an operation: in `Pack`, INV6 keeps `IDX` within the
pixels. -/
theorem selects_in_enginePhase {b : Block} {d : List Byte} (allocOk : Bool) (hr : Rule27 b d) (hp : enginePhase b.phase) :
    ∃ i, engineOp i ∧ decode (.select (selectorOf b) allocOk) = .ok i := by
  obtain ⟨hvdim, hcdim, halloc, hpackpx, hfinish, -, -⟩ := engineSelectionByState b allocOk
  obtain hp | hp | hp := hp
  · exact ⟨.vdim, trivial, hvdim hp⟩
  · exact ⟨.cdim, trivial, hcdim hp⟩
  · by_cases ho : b.outlen = 0
    · exact ⟨.alloc allocOk, trivial, halloc hp ho⟩
    · obtain ⟨-, hle, -⟩ := hr.inv6 hp ho
      obtain hi | hi := hle.lt_or_eq
      · exact ⟨.packpx, trivial, hpackpx hp ho hi⟩
      · exact ⟨.finish, trivial, hfinish hp ho hi⟩

/-- Settles O58, by what `CDIM` and `ALLOC` answer. -/
theorem callEndsWithinTheStepBound : Obligations.CallEndsWithinTheStepBound :=
  ⟨fun _ _ allocOk hr hp => selects_in_enginePhase allocOk hr hp, fun _ hm hp ha => run_from_cdim hm ha hp⟩

end Sys2Proof.Machine

/-! PROOF. A whole call of `decode_image` (R151): what is presented and what comes of it, up to the poll. -/

namespace Sys2Proof.Machine

/-! ## The coming turns -/

/-- The Engine's turn, its draw included, does not look at the coming turns. -/
theorem engineMessage_withAgenda (s : State) (turns : List Turn) :
    engineMessage (s.withAgenda turns) = ((engineMessage s).1, (engineMessage s).2.withAgenda turns) := by
  have hdraw : nextDraw (s.withAgenda turns).env = nextDraw s.env := by
    cases h : s.env.draws <;> simp [nextDraw, h]
  unfold engineMessage
  rw [hdraw]
  cases h : asksDraw (selectorOf s.block) <;> simp [h]
  rfl

/-- Taking a turn does not look at the turns after it. -/
theorem fetch_withAgenda_cons (s : State) (turn : Turn) (rest : List Turn) :
    fetch (s.withAgenda (turn :: rest)) =
      ((fetch (s.withAgenda [turn])).1, (fetch (s.withAgenda [turn])).2.withAgenda rest) := by
  cases turn with
  | arrival a => rfl
  | engine =>
    rw [fetch_engine (.inr ⟨rest, rfl, rfl⟩), fetch_engine (.inr ⟨[], rfl, rfl⟩)]
    simp only [engineMessage_withAgenda]
    rfl

/-- After a turn the turns that stood behind it are the coming ones. -/
theorem fetch_agenda (s : State) (turn : Turn) (rest : List Turn) :
    (fetch (s.withAgenda (turn :: rest))).2.env.agenda = rest := by
  rw [fetch_withAgenda_cons]
  rfl

/-- A step at a turn leaves the turns that stood behind it. -/
theorem step_cons_agenda {s t : State} {turn : Turn} {rest : List Turn}
    (h : step (s.withAgenda (turn :: rest)) = .next t) : t.env.agenda = rest := by
  obtain ⟨i, -, hx⟩ | ⟨r, -, rfl⟩ := step_next h
  · rw [exec_agenda hx, fetch_agenda]
  · exact fetch_agenda s turn rest

section
variable {s t : State} (turns : List Turn)

theorem execProcess_withAgenda (h : execProcess s = .next t) :
    execProcess (s.withAgenda turns) = .next (t.withAgenda turns) := by
  obtain ⟨hp, rfl⟩ | ⟨hp, rfl⟩ := execProcess_next.mp h
  · exact execProcess_next.mpr (.inl ⟨hp, rfl⟩)
  · exact execProcess_next.mpr (.inr ⟨hp, rfl⟩)

theorem execRelease_withAgenda (h : execRelease s = .next t) :
    execRelease (s.withAgenda turns) = .next (t.withAgenda turns) := by
  obtain ⟨hp, rfl⟩ | ⟨hd, hf, rfl⟩ := execRelease_next.mp h
  · exact execRelease_next.mpr (.inl ⟨hp, rfl⟩)
  · exact execRelease_next.mpr (.inr ⟨hd, hf, rfl⟩)

theorem issueCommand_withAgenda {v : Word} (h : issueCommand v s = .next t) :
    issueCommand v (s.withAgenda turns) = .next (t.withAgenda turns) := by
  obtain ⟨hv, hc⟩ | ⟨hv, hc⟩ | ⟨h1, h2, rfl⟩ := issueCommand_next.mp h
  · exact issueCommand_next.mpr (.inl ⟨hv, execProcess_withAgenda turns hc⟩)
  · exact issueCommand_next.mpr (.inr (.inl ⟨hv, execRelease_withAgenda turns hc⟩))
  · exact issueCommand_next.mpr (.inr (.inr ⟨h1, h2, rfl⟩))

theorem execRegwr_withAgenda {off : Nat} {v : Word} (h : execRegwr off v s = .next t) :
    execRegwr off v (s.withAgenda turns) = .next (t.withAgenda turns) := by
  obtain ⟨ho, hc⟩ | ⟨ho, hp, rfl⟩ | ⟨ho, hp, rfl⟩ | ⟨h4, h0, hw, hh, rfl⟩ := execRegwr_next.mp h
  · exact execRegwr_next.mpr (.inl ⟨ho, issueCommand_withAgenda turns hc⟩)
  · exact execRegwr_next.mpr (.inr (.inl ⟨ho, hp, rfl⟩))
  · exact execRegwr_next.mpr (.inr (.inr (.inl ⟨ho, hp, rfl⟩)))
  · exact execRegwr_next.mpr (.inr (.inr (.inr ⟨h4, h0, hw, hh, rfl⟩)))

/-- No operation looks at the coming turns. -/
theorem exec_withAgenda {i : Instr} (h : exec i s = .next t) :
    exec i (s.withAgenda turns) = .next (t.withAgenda turns) := by
  cases i with
  | nop => rw [execNop_next.mp h]; rfl
  | process => exact execProcess_withAgenda turns h
  | release => exact execRelease_withAgenda turns h
  | regrd off =>
    obtain ⟨h4, rfl⟩ := execRegrd_next.mp h
    exact execRegrd_next.mpr ⟨h4, rfl⟩
  | regwr off v => exact execRegwr_withAgenda turns h
  | dstrd off =>
    obtain ⟨hp, hlt, b, hb, rfl⟩ := execDstrd_next.mp h
    exact execDstrd_next.mpr ⟨hp, hlt, b, hb, rfl⟩
  | decOk aw ah buf =>
    obtain ⟨hp, hl, rfl⟩ | ⟨hp, rfl⟩ := execDecOk_next.mp h
    · exact execDecOk_next.mpr (.inl ⟨hp, hl, rfl⟩)
    · exact execDecOk_next.mpr (.inr ⟨hp, rfl⟩)
  | decErr reason =>
    obtain ⟨hp, rfl⟩ | ⟨hp, rfl⟩ := execDecErr_next.mp h
    · exact execDecErr_next.mpr (.inl ⟨hp, rfl⟩)
    · exact execDecErr_next.mpr (.inr ⟨hp, rfl⟩)
  | decNomem =>
    obtain ⟨hp, rfl⟩ | ⟨hp, rfl⟩ := execDecNomem_next.mp h
    · exact execDecNomem_next.mpr (.inl ⟨hp, rfl⟩)
    · exact execDecNomem_next.mpr (.inr ⟨hp, rfl⟩)
  | vdim =>
    obtain ⟨hp, ⟨hw, hh, rfl⟩ | ⟨hn, rfl⟩⟩ := execVdim_next.mp h
    · exact execVdim_next.mpr ⟨hp, .inl ⟨hw, hh, rfl⟩⟩
    · exact execVdim_next.mpr ⟨hp, .inr ⟨hn, rfl⟩⟩
  | cdim =>
    obtain ⟨hp, ⟨hw, hh, rfl⟩ | ⟨hn, rfl⟩⟩ := execCdim_next.mp h
    · exact execCdim_next.mpr ⟨hp, .inl ⟨hw, hh, rfl⟩⟩
    · exact execCdim_next.mpr ⟨hp, .inr ⟨hn, rfl⟩⟩
  | alloc draw =>
    obtain ⟨hp, ho, ⟨hg, len, hl, rfl⟩ | ⟨hg, rfl⟩⟩ := execAlloc_next.mp h
    · exact execAlloc_next.mpr ⟨hp, ho, .inl ⟨hg, len, hl, rfl⟩⟩
    · exact execAlloc_next.mpr ⟨hp, ho, .inr ⟨hg, rfl⟩⟩
  | packpx =>
    obtain ⟨hp, ho, hi, hd, r, g, b, hpixel, idx, hidx, rfl⟩ := execPackpx_next.mp h
    exact execPackpx_next.mpr ⟨hp, ho, hi, hd, r, g, b, hpixel, idx, hidx, rfl⟩
  | finish =>
    obtain ⟨hp, ho, hi, rfl⟩ := execFinish_next.mp h
    exact execFinish_next.mpr ⟨hp, ho, hi, rfl⟩
  | reset => rw [execReset_next.mp h]; rfl

theorem onReject_withAgenda {r : Reject} (h : onReject r s = .next t) :
    onReject r (s.withAgenda turns) = .next (t.withAgenda turns) := by
  obtain rfl := onReject_next h
  cases r with
  | misaligned off => cases h
  | reservedCommand | reservedResponse | noOperation => rfl

/-- What a step does at a turn does not depend on the turns behind it. -/
theorem step_withAgenda_cons {turn : Turn} (h : step (s.withAgenda [turn]) = .next t) :
    step (s.withAgenda (turn :: turns)) = .next (t.withAgenda turns) := by
  unfold step at h ⊢
  rw [fetch_withAgenda_cons]
  split at h
  · rename_i i hi
    simp only [hi, exec_withAgenda turns h]
  · rename_i r hr
    simp only [hr, onReject_withAgenda turns h]

end

/-- Turns that are presented one by one, to a machine that nothing else faces, are the run of the machine that faces all of
them from the start. -/
theorem run_of_transact : ∀ {turns : List Turn} {s t : State} {reads : List BusData}, s.env.agenda = [] →
    transact turns s = .next (t, reads) → run turns.length (s.withAgenda turns) = .next t
  | [], s, t, reads, ha, h => by
    simp only [transact, Host.Outcome.next.injEq, Prod.mk.injEq] at h
    obtain ⟨rfl, -⟩ := h
    exact congrArg Host.Outcome.next (show s.withAgenda [] = s by rw [← ha]; rfl)
  | turn :: turns, s, t, reads, ha, h => by
    simp only [transact, andThen_eq_next] at h
    obtain ⟨u, hu, ⟨v, rs⟩, hv, he⟩ := h
    simp only [Host.Outcome.next.injEq, Prod.mk.injEq] at he
    obtain ⟨rfl, -⟩ := he
    have hrun := run_of_transact ((step_cons_agenda hu).trans ha) hv
    rw [ha] at hu
    exact run_succ (step_withAgenda_cons turns hu) hrun

/-! ## What is presented -/

/-- The block of a call for which the Host has declared a width and a height, while nothing else is written yet. -/
def declaredBlock (p : Phase) (w h : Word) : Block := { Block.reset with phase := p, ew := w, eh := h }

section
variable {s t u v : State} {w h : Word}

/-- The two register writes and `PROCESS` from the reset block. -/
theorem transact_declare (w h : Word) (hb : s.block = Block.reset) :
    transact [.arrival (.writeReg 0x0C w), .arrival (.writeReg 0x10 h), .arrival (.command 1)] s =
      .next (s.withBlock (declaredBlock .validateDimensions w h), []) := by
  obtain ⟨b, e⟩ := s
  obtain rfl := hb
  have hw : exec (.regwr 0x0C w) ⟨Block.reset, e⟩ = .next ⟨declaredBlock .start w 0, e⟩ :=
    execRegwr_next.mpr (.inr (.inl ⟨rfl, rfl, rfl⟩))
  have hh : exec (.regwr 0x10 h) ⟨declaredBlock .start w 0, e⟩ = .next ⟨declaredBlock .start w h, e⟩ :=
    execRegwr_next.mpr (.inr (.inr (.inl ⟨rfl, rfl, rfl⟩)))
  have hp : exec .process ⟨declaredBlock .start w h, e⟩ = .next ⟨declaredBlock .validateDimensions w h, e⟩ :=
    execProcess_next.mpr (.inl ⟨rfl, rfl⟩)
  exact transact_cons ((step_presented rfl).trans hw) (transact_cons ((step_presented rfl).trans hh)
    (transact_cons ((step_presented rfl).trans hp) rfl))

/-- R151's turns up to the poll, by what `VDIM`, the Decoder's response and the Engine's turns after it answer. -/
theorem transact_decodeImageTurns {w0 w1 w2 : Word} {buf : List Byte} {pixels : Nat} (hb : s.block = Block.reset)
    (ha : s.env.agenda = []) (hvdim : execVdim (s.withBlock (declaredBlock .validateDimensions w h)) = .next t)
    (hresponse : step (t.withAgenda (.arrival (.response w0 w1 w2 buf) :: t.env.agenda)) = .next u)
    (hrun : run (pixels + 3) u = .next v) :
    transact (decodeImageTurns w h (.response w0 w1 w2 buf) pixels) s = .next (v, []) ∧ v.env.agenda = [] := by
  have ha' : (s.withBlock (declaredBlock .validateDimensions w h)).env.agenda = [] := ha
  have hstep := (step_vdim ha' rfl).trans hvdim
  have hau : u.env.agenda = [] := (step_cons_agenda hresponse).trans (step_agenda ha' hstep)
  obtain ⟨hengines, hav⟩ := transact_engines _ _ _ hau hrun
  exact ⟨transact_append (transact_declare w h hb)
    (transact_cons ((step_engine_presented ha').trans hstep) (transact_cons hresponse hengines)), hav⟩

/-- With legal dimensions the Decoder is invoked: its response is performed in `Decode` (R100). -/
theorem transact_decodeImageTurns_legal {w0 w1 w2 : Word} {buf : List Byte} {pixels : Nat} {i : Instr}
    (hb : s.block = Block.reset) (ha : s.env.agenda = []) (hw : legalDim w) (hh : legalDim h)
    (hi : decode (.arrival (.response w0 w1 w2 buf)) = .ok i)
    (hx : exec i (s.withBlock (declaredBlock .decode w h)) = .next u)
    (hrun : run (pixels + 3) u = .next v) :
    transact (decodeImageTurns w h (.response w0 w1 w2 buf) pixels) s = .next (v, []) ∧ v.env.agenda = [] :=
  transact_decodeImageTurns hb ha (execVdim_legal rfl ⟨hw, hh⟩) ((step_presented hi).trans hx) hrun

end

/-! ## The whole call -/

/-- The block right after an admitted `DEC.OK`. -/
def deliveredBlock (w h aw ah : Word) (buf : List Byte) : Block :=
  { declaredBlock .checkDimensions w h with aw := aw, ah := ah, src := Memory.ofBytes buf }

/-- The state right after an admitted `DEC.OK`, which keeps the delivered bytes (log 14). -/
def deliveredState (s : State) (w h aw ah : Word) (buf : List Byte) : State :=
  ⟨deliveredBlock w h aw ah buf, { s.env with delivered := buf }⟩

section
variable {s : State} {w h aw ah : Word} {buf : List Byte}

theorem exec_decOk_declared (hl : buf.length = 3 * aw.toNat * ah.toNat) :
    exec (.decOk aw ah buf) (s.withBlock (declaredBlock .decode w h)) = .next (deliveredState s w h aw ah buf) :=
  execDecOk_next.mpr (.inl ⟨rfl, hl, rfl⟩)

theorem machineInv_deliveredState (hw : legalDim w) (hh : legalDim h) (hl : buf.length = 3 * aw.toNat * ah.toNat) :
    MachineInv (deliveredState s w h aw ah buf) where
  rule27 := rule27_of_phaseClause
    ⟨⟨hw, hh⟩, rfl, rfl, rfl, rfl, (Memory.ofBytes_length buf).trans hl⟩ (withinBounds_of_empty rfl rfl rfl)
  srcWf := Memory.ofBytes_wf buf
  dstWf := Memory.nil_wf
  srcDelivered := fun _ => rfl

/-- A successful call up to the poll: the turns end in `Done`, under the invariant, with the declared dimensions. -/
theorem transact_successful_call {ds : List Bool} (hb : s.block = Block.reset) (ha : s.env.agenda = [])
    (hd : s.env.draws = true :: ds) (hw : legalDim w) (hh : legalDim h) (hl : buf.length = 3 * w.toNat * h.toNat) :
    ∃ t, transact (decodeImageTurns w h (.response 0x00000010#32 w h buf) (w.toNat * h.toNat)) s = .next (t, []) ∧
      t.env.agenda = [] ∧ MachineInv t ∧ t.block.phase = .done ∧ SameCall (deliveredState s w h w h buf) t := by
  have hm := machineInv_deliveredState (s := s) hw hh hl
  obtain ⟨t, hrun, hdone, hcall⟩ := run_pack hm rfl rfl rfl ha hd
  obtain ⟨hturns, hat⟩ := transact_decodeImageTurns_legal hb ha hw hh (decOkDeliversTheImage.1 w h buf)
    (exec_decOk_declared hl) hrun
  exact ⟨t, hturns, hat, run_keeps_machineInv hrun hm, hdone, hcall⟩

theorem decodeImageTurns_length (response : Arrival) (pixels : Nat) :
    (decodeImageTurns w h response pixels).length = 2 + (pixels + 6) := by
  simp only [decodeImageTurns, processTurns, packTurns, List.length_cons, List.length_replicate]
  omega

end

/-- Settles O59: the agenda is the turns of a successful call, and INV7 says what `Done` holds. -/
theorem wholeCallFromReset : Obligations.WholeCallFromReset := by
  intro w h buf ds hw hh hl
  obtain ⟨t, hturns, hat, hm, hdone, hcall⟩ :=
    transact_successful_call (s := startedWith [] (true :: ds)) rfl rfl rfl hw hh hl
  have hrun := run_of_transact rfl hturns
  rw [decodeImageTurns_length] at hrun
  obtain ⟨-, -, -, herr, -, hout, hsrc, hpacked⟩ := hm.rule27.inv7 hdone
  rw [hcall.pixels] at hout hpacked
  rw [hcall.delivered] at hpacked
  exact ⟨t, hrun, hdone, hcall.ew, hcall.eh, herr, hsrc, hout, hat, hpacked⟩

end Sys2Proof.Machine

/-! PROOF. The Host's side of `decode_image` (R151): the poll, the read-out, and what the call returns on each path. -/

namespace Sys2Proof.Machine

/-! ## Reading registers and releasing -/

/-- Reading registers one after the other returns what the block holds, and leaves it and the coming turns as they are. -/
theorem transact_readRegs : ∀ (offs : List Nat) (s : State), (∀ off ∈ offs, off % 4 = 0) →
    ∃ t, transact (offs.map fun off => .arrival (.readReg off)) s =
        .next (t, offs.map fun off => .word (regRead s.block off)) ∧
      t.block = s.block ∧ t.env.agenda = s.env.agenda
  | [], s, _ => ⟨s, rfl, rfl, rfl⟩
  | off :: offs, s, h => by
    have h4 : off % 4 = 0 := h off (by simp)
    have hx : exec (.regrd off) s = .next (s.returning (.word (regRead s.block off))) := execRegrd_next.mpr ⟨h4, rfl⟩
    obtain ⟨t, hturns, hb, ha⟩ := transact_readRegs offs (s.returning (.word (regRead s.block off)))
      fun o ho => h o (List.mem_cons_of_mem _ ho)
    exact ⟨t, transact_cons ((step_presented (a := .readReg off) (if_pos h4)).trans hx) hturns, hb, ha⟩

theorem transact_release {s : State} (hp : s.block.phase = .done ∨ s.block.phase = .failed) :
    transact [.arrival (.command 2)] s = .next (s.withBlock Block.reset, []) := by
  have hx : exec .release s = .next (s.withBlock Block.reset) := execRelease_next.mpr (.inl ⟨hp, rfl⟩)
  exact transact_cons ((step_presented rfl).trans hx) rfl

/-! ## The poll -/

/-- Where the Engine has no enabled operation, its turns change nothing (log 18). -/
theorem run_of_not_enginePhase {s : State} (n : Nat) (ha : s.env.agenda = []) (hp : ¬enginePhase s.block.phase) :
    run n s = .next s := by
  induction n with
  | zero => rfl
  | succ n ih => exact run_succ (step_of_not_enginePhase ha hp) ih

theorem not_enginePhase_of_ended {p : Phase} (hp : p = .done ∨ p = .failed) : ¬enginePhase p := by
  obtain rfl | rfl := hp <;> simp [enginePhase]

theorem showsEnd_statusWord {p : Phase} (e : ErrKind) (hp : p = .done ∨ p = .failed) :
    showsEnd (statusWord p e) = true := by
  rw [showsEnd, statusWord_done, statusWord_failed]
  obtain rfl | rfl := hp <;> rfl

/-- After the end of a call the first poll shows it, however many turns the Engine has before. -/
theorem poll_of_ended {s : State} (gap : Nat) (gaps : List Nat) (ha : s.env.agenda = [])
    (hp : s.block.phase = .done ∨ s.block.phase = .failed) :
    ∃ t, poll (gap :: gaps) s = .next (t, some (statusWord s.block.phase s.block.err)) ∧ t.block = s.block := by
  obtain ⟨hwaits, -⟩ := transact_engines gap s s ha (run_of_not_enginePhase gap ha (not_enginePhase_of_ended hp))
  obtain ⟨t, hread, hb, -⟩ := transact_readRegs [0x04] s (by simp)
  have hturns := transact_append hwaits hread
  refine ⟨t, ?_, hb⟩
  simp only [List.map_cons, List.map_nil, List.nil_append] at hturns
  simp only [poll, hturns, andThen_next]
  exact if_pos (showsEnd_statusWord _ hp)

/-- A call whose turns end in `Done` or `Failed` goes on with the read-out from the block they leave. -/
theorem decodeImage_of_ended {s t : State} {w h : Word} {response : Arrival} {pixels : Nat} {reads : List BusData}
    (gap : Nat) (gaps : List Nat)
    (hturns : transact (decodeImageTurns w h response pixels) s = .next (t, reads)) (ha : t.env.agenda = [])
    (hp : t.block.phase = .done ∨ t.block.phase = .failed) :
    ∃ u, u.block = t.block ∧ decodeImage w h response pixels (gap :: gaps) s =
      readOut (statusWord u.block.phase u.block.err) u := by
  obtain ⟨u, hpoll, hb⟩ := poll_of_ended gap gaps ha hp
  refine ⟨u, hb, ?_⟩
  simp only [decodeImage, hturns, hpoll, andThen_next, hb]

/-! ## The read-out -/

/-- The read-out by what its two parts return. -/
theorem readOut_of_transact {s t u : State} {status value : Word} {reads : List BusData}
    (hreg : transact [.arrival (.readReg (readOutRegister status))] s = .next (t, [.word value]))
    (hrest : transact (readOutTurns status value) t = .next (u, reads)) :
    readOut status s = .next (u, if status.getLsbD 4 then .packed (bytesOf reads) else .error value (wordsOf reads)) := by
  have hvalue : (wordsOf [.word value]).headD 0 = value := rfl
  simp only [readOut, hreg, andThen_next, hvalue, hrest]

/-- The registers that hold the dimensions, which the Host reads for kind 6. -/
def dimensionOffsets (e : ErrKind) : List Nat := if e = .dimensionMismatch then [0x0C, 0x10, 0x14, 0x18] else []

/-- What a failed call returns beside the code of its kind: `EW`, `EH`, `AW`, `AH` for kind 6, and nothing for another. -/
def reportedDims (b : Block) : List Word := (dimensionOffsets b.err).map (regRead b)

theorem errCode_eq_six_iff (e : ErrKind) : (errCode e).setWidth 32 = (6 : Word) ↔ e = .dimensionMismatch := by
  cases e <;> decide

theorem readOutTurns_failed (e : ErrKind) :
    readOutTurns (statusWord .failed e) ((errCode e).setWidth 32) =
      ((dimensionOffsets e).map fun off => .arrival (.readReg off)) ++ [.arrival (.command 2)] := by
  simp only [readOutTurns, statusWord_done, errCode_eq_six_iff, dimensionOffsets]
  by_cases he : e = .dimensionMismatch <;> simp [doneBit, he]

theorem wordsOf_map_word (vs : List Word) : wordsOf (vs.map .word) = vs := by
  simp [wordsOf, List.filterMap_map]

/-- The read-out of a failed call returns the kind's code and releases the block. -/
theorem readOut_failed {s : State} (hp : s.block.phase = .failed) :
    ∃ t, readOut (statusWord s.block.phase s.block.err) s =
        .next (t, .error ((errCode s.block.err).setWidth 32) (reportedDims s.block)) ∧ t.block = Block.reset := by
  have hdone : (statusWord s.block.phase s.block.err).getLsbD 4 = false := by rw [statusWord_done, hp]; rfl
  obtain ⟨t, hreg, hb, -⟩ := transact_readRegs [0x08] s (by simp)
  obtain ⟨u, hdims, hb', -⟩ := transact_readRegs (dimensionOffsets s.block.err) t
    (by unfold dimensionOffsets; split <;> simp)
  have hrest := transact_append hdims (transact_release (s := u) (.inr (by rw [hb', hb, hp])))
  rw [← readOutTurns_failed, ← hp] at hrest
  have hoff : readOutRegister (statusWord s.block.phase s.block.err) = 0x08 := by rw [readOutRegister, hdone]; rfl
  have hout := readOut_of_transact (by rw [hoff]; exact hreg) hrest
  have hwords : wordsOf ((dimensionOffsets s.block.err).map fun off => .word (regRead s.block off)) =
      reportedDims s.block := by rw [reportedDims, ← wordsOf_map_word (List.map _ _), List.map_map]; rfl
  rw [hdone, List.append_nil, hb, hwords] at hout
  exact ⟨_, hout, rfl⟩

/-- Where every element has a value, the values are as many as the elements, each in its place. -/
theorem getElem?_filterMap_range {n : Nat} {f : Nat → Option Byte} (h : ∀ i, i < n → (f i).isSome) :
    ((List.range n).filterMap f).length = n ∧ ∀ i, i < n → ((List.range n).filterMap f)[i]? = f i := by
  have hmap : (List.range n).filterMap f = (List.range n).map fun i => (f i).getD 0 := by
    refine List.filterMap_eq_map_iff_forall_eq_some.mpr fun i hi => ?_
    obtain ⟨b, hb⟩ := Option.isSome_iff_exists.mp (h i (List.mem_range.mp hi))
    simp [hb]
  refine ⟨by simp [hmap], fun i hi => ?_⟩
  obtain ⟨b, hb⟩ := Option.isSome_iff_exists.mp (h i hi)
  simp [hmap, hi, hb]

/-- The read-out of a successful call returns the bytes of `DST`, each in its place, and releases the block. -/
theorem readOut_done {s : State} (hp : s.block.phase = .done) (hw : Memory.wf s.block.dst)
    (hlen : s.block.dst.length = s.block.outlen.toNat) :
    ∃ t bytes, readOut (statusWord s.block.phase s.block.err) s = .next (t, .packed bytes) ∧ t.block = Block.reset ∧
      bytes.length = s.block.outlen.toNat ∧
      ∀ i, i < s.block.outlen.toNat → bytes[i]? = Memory.read s.block.dst i := by
  have hdone : (statusWord s.block.phase s.block.err).getLsbD 4 = true := by rw [statusWord_done, hp]; rfl
  have hread : ∀ off, off < s.block.outlen.toNat → (Memory.read s.block.dst off).isSome := fun off hoff =>
    (Memory.read_isSome_of_wf hw off).mpr (hlen ▸ hoff)
  have hvalue : (s.block.outlen.setWidth 32).toNat = s.block.outlen.toNat :=
    BitVec.toNat_setWidth_of_le (show 18 ≤ 32 by decide)
  obtain ⟨t, hreg, hb, -⟩ := transact_readRegs [0x20] s (by simp)
  obtain ⟨u, reads, hbytes, hb', -, hreads⟩ := transact_readDst (List.range s.block.outlen.toNat) t (by rw [hb, hp])
    (fun off hoff => by rw [hb]; exact ⟨List.mem_range.mp hoff, hread off (List.mem_range.mp hoff)⟩)
  have hrest := transact_append hbytes (transact_release (s := u) (.inl (by rw [hb', hb, hp])))
  have hturns : readOutTurns (statusWord s.block.phase s.block.err) (s.block.outlen.setWidth 32) =
      ((List.range s.block.outlen.toNat).map fun off => .arrival (.readDst off)) ++ [.arrival (.command 2)] := by
    rw [readOutTurns, if_pos hdone, hvalue]
  rw [← hturns] at hrest
  have hoff : readOutRegister (statusWord s.block.phase s.block.err) = 0x20 := if_pos hdone
  have hout := readOut_of_transact (by rw [hoff]; exact hreg) hrest
  rw [if_pos hdone, List.append_nil, hreads, hb] at hout
  exact ⟨_, _, hout, rfl, getElem?_filterMap_range hread⟩

/-! ## What the call returns -/

/-- A call whose turns end in `Failed` returns the error and leaves the reset block. -/
theorem decodeImage_failed {s t : State} {w h : Word} {response : Arrival} {pixels : Nat} {reads : List BusData}
    (gap : Nat) (gaps : List Nat)
    (hturns : transact (decodeImageTurns w h response pixels) s = .next (t, reads) ∧ t.env.agenda = [])
    (hp : t.block.phase = .failed) :
    ∃ u, decodeImage w h response pixels (gap :: gaps) s =
        .next (u, .error ((errCode t.block.err).setWidth 32) (reportedDims t.block)) ∧ u.block = State.reset.block := by
  obtain ⟨hturns, ha⟩ := hturns
  obtain ⟨v, hb, hcall⟩ := decodeImage_of_ended gap gaps hturns ha (.inr hp)
  obtain ⟨u, hout, hreset⟩ := readOut_failed (s := v) (by rw [hb, hp])
  rw [hb] at hout hcall
  exact ⟨u, hcall.trans hout, hreset⟩

section
variable {s : State} {w h aw ah : Word} {buf : List Byte} {ds : List Bool} (gap : Nat) (gaps : List Nat) (pixels : Nat)
variable (hb : s.block = State.reset.block) (ha : s.env.agenda = [])
include hb ha

theorem decodeImage_packed (hw : legalDim w) (hh : legalDim h) (hl : buf.length = 3 * w.toNat * h.toNat)
    (hd : s.env.draws = true :: ds) :
    ∃ t bytes, decodeImage w h (.response 0x00000010#32 w h buf) (w.toNat * h.toNat) (gap :: gaps) s =
        .next (t, .packed bytes) ∧
      t.block = State.reset.block ∧ bytes.length = 2 * (w.toNat * h.toNat) ∧
      ∀ i, i < w.toNat * h.toNat → ∃ r g b,
        buf[3 * i]? = some r ∧ buf[3 * i + 1]? = some g ∧ buf[3 * i + 2]? = some b ∧
        bytes[2 * i]? = some ((pack565 r g b).extractLsb' 0 8) ∧
        bytes[2 * i + 1]? = some ((pack565 r g b).extractLsb' 8 8) := by
  obtain ⟨t, hturns, hat, hm, hdone, hcall⟩ := transact_successful_call hb ha hd hw hh hl
  obtain ⟨-, -, -, -, -, hout, -, hpacked⟩ := hm.rule27.inv7 hdone
  obtain ⟨-, -, hlen⟩ := hm.rule27.withinBounds
  rw [hcall.pixels] at hout hpacked
  rw [hcall.delivered] at hpacked
  obtain ⟨v, hbv, hv⟩ := decodeImage_of_ended gap gaps hturns hat (.inl hdone)
  rw [← hbv] at hdone hlen hout hpacked
  obtain ⟨u, bytes, hread, hreset, hcount, hbytes⟩ := readOut_done hdone (hbv ▸ hm.dstWf) hlen
  change v.block.outlen.toNat = 2 * (w.toNat * h.toNat) at hout
  rw [hout] at hcount hbytes
  refine ⟨u, bytes, hv.trans hread, hreset, hcount, fun i hi => ?_⟩
  rw [hbytes _ (by omega), hbytes _ (by omega)]
  exact pixelPacked_ofBytes.mp (hpacked i hi)

/-- A Decoder response that raises in `Decode` ends the call; the Engine's turns after it change nothing. -/
theorem decodeImage_response_raises {w0 w1 w2 : Word} {i : Instr} {k : ErrKind} (hw : legalDim w) (hh : legalDim h)
    (hi : decode (.arrival (.response w0 w1 w2 buf)) = .ok i) (hk : k ≠ .dimensionMismatch)
    (hx : ∀ u : State, u.block.phase = .decode → exec i u = .next (u.withBlock (u.block.raise k))) :
    ∃ t, decodeImage w h (.response w0 w1 w2 buf) pixels (gap :: gaps) s =
        .next (t, .error ((errCode k).setWidth 32) []) ∧ t.block = State.reset.block := by
  have hrun := run_of_not_enginePhase (s := s.withBlock ((declaredBlock .decode w h).raise k)) (pixels + 3) ha
    (not_enginePhase_of_ended (.inr rfl))
  have hturns := transact_decodeImageTurns_legal hb ha hw hh hi (hx _ rfl) hrun
  simpa [reportedDims, dimensionOffsets, hk] using decodeImage_failed gap gaps hturns rfl

theorem decodeImage_mismatch (hw : legalDim w) (hh : legalDim h) (hl : buf.length = 3 * aw.toNat * ah.toNat)
    (hne : aw ≠ w ∨ ah ≠ h) :
    ∃ t, decodeImage w h (.response 0x00000010#32 aw ah buf) pixels (gap :: gaps) s =
        .next (t, .error 6 [w, h, aw, ah]) ∧ t.block = State.reset.block := by
  have hcdim := step_cdim_mismatched (s := deliveredState s w h aw ah buf) ha rfl (not_and_or.mpr hne)
  have hrun := run_succ hcdim (run_of_not_enginePhase (pixels + 2) ha (not_enginePhase_of_ended (.inr rfl)))
  have hturns := transact_decodeImageTurns_legal hb ha hw hh (decOkDeliversTheImage.1 aw ah buf)
    (exec_decOk_declared hl) hrun
  exact decodeImage_failed gap gaps hturns rfl

theorem decodeImage_denied (hw : legalDim w) (hh : legalDim h) (hl : buf.length = 3 * w.toNat * h.toNat)
    (hd : s.env.draws = false :: ds) (hfail : Config.allocCanFail = true) :
    ∃ t, decodeImage w h (.response 0x00000010#32 w h buf) pixels (gap :: gaps) s = .next (t, .error 7 []) ∧
      t.block = State.reset.block := by
  have hcdim := step_cdim_matched (s := deliveredState s w h w h buf) ha rfl rfl rfl
  have ha' := step_agenda (s := deliveredState s w h w h buf) ha hcdim
  have hdenied : granted (nextDraw (deliveredState s w h w h buf).env) = false := by
    rw [nextDraw_of_cons (u := deliveredState s w h w h buf) hd]
    exact granted_eq_false.mpr ⟨rfl, hfail⟩
  obtain ⟨t, halloc, hbt⟩ := step_alloc_of_denied ha' rfl rfl hdenied
  have hp : t.block.phase = .failed := by rw [hbt]; rfl
  have hrun := run_succ hcdim (run_succ halloc
    (run_of_not_enginePhase (pixels + 1) (step_agenda ha' halloc) (not_enginePhase_of_ended (.inr hp))))
  have hturns := transact_decodeImageTurns_legal hb ha hw hh (decOkDeliversTheImage.1 w h buf)
    (exec_decOk_declared hl) hrun
  have hcall := decodeImage_failed gap gaps hturns hp
  rwa [hbt] at hcall

end

/-- Outside `Decode` a Decoder's word is dropped, whatever it is (R87, R88; log 10). -/
theorem step_response_dropped {s : State} (w0 w1 w2 : Word) (buf : List Byte) (hp : s.block.phase ≠ .decode) :
    step (s.withAgenda (.arrival (.response w0 w1 w2 buf) :: s.env.agenda)) = .next s := by
  obtain ⟨-, hd⟩ | ⟨reason, -, hd⟩ | ⟨-, hd⟩ | hd := decodeResponse_cases w0 w1 w2 buf
  · exact (step_presented (a := .response w0 w1 w2 buf) hd).trans (execDecOk_next.mpr (.inr ⟨hp, rfl⟩))
  · exact (step_presented (a := .response w0 w1 w2 buf) hd).trans (execDecErr_next.mpr (.inr ⟨hp, rfl⟩))
  · exact (step_presented (a := .response w0 w1 w2 buf) hd).trans (execDecNomem_next.mpr (.inr ⟨hp, rfl⟩))
  · exact step_arrival_of_reject (a := .response w0 w1 w2 buf) rfl hd

theorem decodeImage_illegal {s : State} {w h : Word} (gap : Nat) (gaps : List Nat) (pixels : Nat) (w0 w1 w2 : Word)
    (buf : List Byte) (hb : s.block = State.reset.block) (ha : s.env.agenda = []) (hl : ¬(legalDim w ∧ legalDim h)) :
    ∃ t, decodeImage w h (.response w0 w1 w2 buf) pixels (gap :: gaps) s = .next (t, .error 1 []) ∧
      t.block = State.reset.block := by
  have hvdim := execVdim_illegal (s := s.withBlock (declaredBlock .validateDimensions w h)) rfl hl
  have hrun := run_of_not_enginePhase
    (s := s.withBlock ((declaredBlock .validateDimensions w h).raise .invalidDimensions)) (pixels + 3) ha
    (not_enginePhase_of_ended (.inr rfl))
  have hturns := transact_decodeImageTurns hb ha hvdim (step_response_dropped w0 w1 w2 buf nofun) hrun
  exact decodeImage_failed gap gaps hturns rfl

theorem kindOfReason_ne_dimensionMismatch (reason : DecodeReason) : kindOfReason reason ≠ .dimensionMismatch := by
  cases reason <;> nofun

/-- Settles O60, path by path. -/
theorem decodeImageReturnsItsResult : Obligations.DecodeImageReturnsItsResult := by
  intro s w h gap gaps hb ha
  refine ⟨fun buf ds hw hh hl hd => decodeImage_packed gap gaps hb ha hw hh hl hd,
    fun aw ah buf pixels hw hh hl hne => decodeImage_mismatch gap gaps pixels hb ha hw hh hl hne,
    fun reason pixels hw hh => ?_, fun pixels hw hh => ?_, fun buf ds pixels hw hh hl hd => ?_,
    fun w0 w1 w2 buf pixels hl => decodeImage_illegal gap gaps pixels w0 w1 w2 buf hb ha hl⟩
  · have hcall := decodeImage_response_raises gap gaps pixels hb ha hw hh (decErrPropagatesTheReason.1 reason 0 0 [])
      (kindOfReason_ne_dimensionMismatch reason) fun u hp => execDecErr_next.mpr (.inl ⟨hp, rfl⟩)
    rwa [errCode_kindOfReason] at hcall
  · exact decodeImage_response_raises gap gaps pixels hb ha hw hh (decNomemRaisesAllocationFailure.1 0 0 [])
      (k := .allocationFailure) nofun fun u hp => execDecNomem_next.mpr (.inl ⟨hp, rfl⟩)
  · cases hfail : Config.allocCanFail with
    | false => exact .inl rfl
    | true => exact .inr (decodeImage_denied gap gaps pixels hb ha hw hh hl hd hfail)

end Sys2Proof.Machine

/-! PROOF. Errors: what raises them and what error entry writes (R160, R170), the way out of `Failed` (R171), and that the Host
cannot disturb a running call (R169, U12). -/

namespace Sys2Proof.Machine

/-! ## Error entry -/

/-- The operations that raise an error, each with its kind and with the block it raises it in (R161 to R167). -/
inductive Raises (b : Block) : Instr → ErrKind → Prop where
  | vdim : b.phase = .validateDimensions → ¬legalDims b → Raises b .vdim .invalidDimensions
  | decErr (reason : DecodeReason) : b.phase = .decode → Raises b (.decErr reason) (kindOfReason reason)
  | decNomem : b.phase = .decode → Raises b .decNomem .allocationFailure
  | cdim : b.phase = .checkDimensions → ¬(b.aw = b.ew ∧ b.ah = b.eh) → Raises b .cdim .dimensionMismatch
  | alloc (draw : Bool) : b.phase = .pack → b.outlen = 0 → Raises b (.alloc draw) .allocationFailure

section
variable {s t : State} {b b' : Block} {d d' : List Byte} {i : Instr} {k : ErrKind}

/-- `Failed` is entered by error entry alone. -/
theorem effect_into_failed (h : Effect b d i b' d') (hp : b.phase ≠ .failed) (hp' : b'.phase = .failed) :
    ∃ k, Raises b i k ∧ b' = b.raise k := by
  cases h with
  | decErr reason hq => exact ⟨_, .decErr reason hq, rfl⟩
  | decNomem hq => exact ⟨_, .decNomem hq, rfl⟩
  | vdimFail hq hl => exact ⟨_, .vdim hq hl, rfl⟩
  | cdimFail hq hne => exact ⟨_, .cdim hq (not_and_or.mpr hne), rfl⟩
  | allocFail draw hq ho => exact ⟨_, .alloc draw hq ho, rfl⟩
  | keep | writeEw | writeEh | allocOk | packpx => exact absurd hp' hp
  | reset | release | process | decOk | vdimOk | cdimOk | finish => cases hp'

theorem Raises.one_le_errCode (h : Raises b i k) : 1 ≤ (errCode k).toNat := by
  cases h with
  | decErr reason => cases reason <;> decide
  | vdim | decNomem | cdim | alloc => decide

/-- R27 leaves no packed pixel where an error can be raised, so that error entry finds `DST`, `OUTLEN` and `IDX` clear. -/
theorem Raises.nothing_packed (h : Raises b i k) (hr : Rule27 b d) : b.dst = [] ∧ b.outlen = 0 ∧ b.idx = 0 := by
  cases h with
  | vdim hp =>
    have hu := hr.inv1 (.inr hp)
    exact ⟨hu.dst, hu.outlen, hu.idx⟩
  | decErr _ hp | decNomem hp =>
    obtain ⟨-, hu⟩ := hr.inv2 hp
    exact ⟨hu.dst, hu.outlen, hu.idx⟩
  | cdim hp =>
    obtain ⟨-, hi, -, ho, hdst, -⟩ := hr.inv3 hp
    exact ⟨hdst, ho, hi⟩
  | alloc draw hp ho =>
    obtain ⟨hi, hdst⟩ := hr.inv5 hp ho
    exact ⟨hdst, ho, hi⟩

/-- An `ALLOC` fails only where `ALLOC_CAN_FAIL` holds (R121). -/
theorem allocCanFail_of_alloc_failed {draw : Bool} (h : exec (.alloc draw) s = .next t) (hp' : t.block.phase = .failed) :
    Config.allocCanFail = true := by
  obtain ⟨hp, -, ⟨-, len, -, rfl⟩ | ⟨hg, -⟩⟩ := execAlloc_next.mp h
  · cases hp.symm.trans hp'
  · exact (granted_eq_false.mp hg).2

end

/-- Settles O4: `Failed` is entered by error entry, and R27 tells what it finds clear. -/
theorem errorEntryWritesSixItems : Obligations.ErrorEntryWritesSixItems := by
  intro i s t h hp hp'
  obtain ⟨k, hk, hb⟩ := effect_into_failed (exec_effect h) hp hp'
  rw [hb]
  exact ⟨hk.one_le_errCode, errCode_le_seven k, rfl, fun hm => hk.nothing_packed hm.rule27⟩

/-- Settles O5, one raiser after the other; that a failing `ALLOC` drew 0 and could fail is the condition of its branch (R121). -/
theorem eachErrorKindHasItsRaisers : Obligations.EachErrorKindHasItsRaisers := by
  intro i s t h hp hp'
  obtain ⟨k, hk, hb⟩ := effect_into_failed (exec_effect h) hp hp'
  have herr : t.block.err = k := by rw [hb]; rfl
  rw [herr]
  cases hk with
  | vdim _ hl => simpa using hl
  | decErr reason => cases reason <;> simp [kindOfReason]
  | decNomem => simp
  | cdim _ hne => simpa using hne
  | alloc draw => simp [draw_of_alloc_failed h hp', allocCanFail_of_alloc_failed h hp']

/-! ## The way out of `Failed` -/

/-- Settles O6: an effect out of `Failed` keeps the block or resets it, and the graph of `PHASE` has three edges from `Failed` to
`Start`. -/
theorem failedIsLeftOnlyByReleaseOrReset : Obligations.FailedIsLeftOnlyByReleaseOrReset := by
  intro i s t hp h
  obtain hb | hb := effect_after_end (exec_effect h) (.inr hp)
  · exact .inl hb
  · refine .inr ⟨?_, hb⟩
    obtain ⟨movesAlong, -⟩ := phaseMovesAlongTheGraph
    have hmove := movesAlong i s t h
    rw [hp, hb] at hmove
    obtain hsame | hedge := hmove
    · cases hsame
    · cases hedge with
      | releaseFailed => exact .inl rfl
      | writeReleaseFailed => exact .inr (.inl rfl)
      | reset => exact .inr (.inr rfl)

/-! ## The Host during a call -/

/-- The Host's effects on the block belong to `Start`, `Done` and `Failed` (R23, U12). -/
theorem effect_of_hostOp_while_busy {b b' : Block} {d d' : List Byte} {i : Instr} (h : Effect b d i b' d')
    (hbusy : busyBit b.phase = true) (hi : hostOp i) : b' = b := by
  cases h with
  | keep => rfl
  | release i hp => obtain hp | hp := hp <;> simp [hp, busyBit] at hbusy
  | process i hp | writeEw v hp | writeEh v hp => simp [hp, busyBit] at hbusy
  | reset | decOk | decErr | decNomem | vdimOk | vdimFail | cdimOk | cdimFail | allocOk | allocFail | packpx
    | finish => cases hi

/-- Settles O46. -/
theorem hostCannotDisturbARunningCall : Obligations.HostCannotDisturbARunningCall :=
  fun _ _ _ hbusy hi h => effect_of_hostOp_while_busy (exec_effect h) hbusy hi

end Sys2Proof.Machine

/-! PROOF. The reset event (R190), and what it leaves of a call (R191). -/

namespace Sys2Proof.Machine

/-- Reset is enabled in every phase, and leaves the reset block (R28, R190). -/
theorem exec_reset (s : State) : exec .reset s = .next (s.withBlock Block.reset) := execReset_next.mpr rfl

/-- Settles O2: the items are those of the reset block, which `RELEASE` also leaves, and in `Start` the Engine waits. -/
theorem resetEventRestoresEveryItem : Obligations.ResetEventRestoresEveryItem := by
  obtain ⟨hphase, hew, heh, haw, hah, hidx, herr, houtlen, hsrc, -, hdst, hstatus⟩ := resetLeavesEveryItemAtItsValue
  obtain ⟨-, -, releases, -⟩ := releaseRestoresTheResetState
  refine ⟨fun s => ⟨s.withBlock Block.reset, exec_reset s, rfl, hphase, hew, heh, haw, hah, hidx, herr, houtlen, hsrc, hdst,
    hstatus, fun u v hended h => (releases u hended v h).1⟩, fun s hb ha => step_of_not_enginePhase ha ?_⟩
  rw [hb, hphase]
  simp [enginePhase]

/-- Settles O3: after a reset the block is in `Start`, where every response is untimely (R88). -/
theorem resetDuringACallAbandonsIt : Obligations.ResetDuringACallAbandonsIt := by
  intro s
  obtain ⟨-, -, -, -, untimely, -⟩ := reservedAndUntimelyInputsAreDropped
  have hstart : (s.withBlock Block.reset).block.phase ≠ .decode := nofun
  exact ⟨s.withBlock Block.reset, exec_reset s, rfl, rfl, rfl, rfl, untimely _ hstart⟩

end Sys2Proof.Machine
